-- ==== Sys2Proof/Word.lean ====
section
/-! DEFINITION. The one word of the machine: an unsigned 32-bit value (00_scope.md R8, R9, R11). Every arithmetic
operation on it wraps modulo 2^32 (R15), which is what BitVec arithmetic does; nothing is signed (R14). -/

namespace Sys2Proof

/-- A block, a key part, a counter, a length or an index: BLOCKW = CTRW = LENW = 32 (00_scope.md R8 to R11). -/
abbrev Word := BitVec 32

end Sys2Proof
end

