-- ==== Sys2Proof/Config.lean ====
section
/-! DEFINITION. What an implementation fixes (MAXLEN, 00_scope.md R12) and the free values: what a reset event
leaves in the state the spec calls unspecified (10_state.md R36, 93_implementation_defined.md U5 and U8). -/

namespace Sys2Proof

/-- The parameters of the hardware. LENW is 32 here (00_scope.md R11); MAXLEN is "a named parameter the model takes
as an argument" (R12): it stands in State's field `cfg`, which no step writes (assumption 1). -/
structure Config where
  /-- How many words the block store holds. -/
  maxLen : Nat
deriving DecidableEq, Repr

/-- The bounds of MAXLEN: `1 <= MAXLEN <= 2^LENW - 1` (00_scope.md R12). -/
abbrev Config.InRange (c : Config) : Prop := 1 ≤ c.maxLen ∧ c.maxLen ≤ 4294967295

/-- The spec's default, `MAXLEN = 2^LENW - 1`: every representable non-zero length fits (00_scope.md R12). -/
def Config.default : Config := ⟨4294967295⟩

/-! Free values (assumption 6): what the `n`-th reset event leaves. They have no body, so no proof can see one. -/

/-- KLO after reset event `n`. -/
opaque Config.kloAfterReset : Nat → Word
/-- KHI after reset event `n`. -/
opaque Config.khiAfterReset : Nat → Word
/-- IV after reset event `n`. -/
opaque Config.ivAfterReset : Nat → Word
/-- LEN after reset event `n`. -/
opaque Config.lenAfterReset : Nat → Word
/-- STATUS.CODE after reset event `n`: any of the eight values, 5 to 7 among them (93_implementation_defined.md U5). -/
opaque Config.codeAfterReset : Nat → BitVec 3
/-- T after reset event `n`. -/
opaque Config.tAfterReset : Nat → Word
/-- IDX after reset event `n`. -/
opaque Config.idxAfterReset : Nat → Word
/-- CMDR after reset event `n`. -/
opaque Config.cmdrAfterReset : Nat → BitVec 4
/-- The block store word at an index after reset event `n`. -/
opaque Config.blkAfterReset : Nat → Nat → Word

end Sys2Proof
end

