-- ==== Sys2Proof/Syntax.lean ====
section
/-! DEFINITION. The instructions: one constructor per row of spec/opcode_table.json, in the table's order, in the
four formats CMD, UOP, STEP and HOST (30_encoding.md R70), and the raw encodings they are read from. -/

namespace Sys2Proof

/-- The six registers of the REG space (30_encoding.md R72). CMD is a write-only port, STATUS is read only. -/
inductive Reg where
  | klo
  | khi
  | iv
  | len
  | cmd
  | status
deriving DecidableEq, Repr

/-- The instructions of the opcode table. -/
inductive Instr where
  /-- ENCODE (format CMD): the whole command, with its operand-present bits (30_encoding.md R74; 42_encoder.md R110). -/
  | encode (kp ip dp : Bool)
  /-- DECODE (format CMD): the whole command, with its operand-present bits (43_decoder.md R130). -/
  | decode (kp ip dp : Bool)
  /-- FWD (format UOP): the forward combine on the operands the current step wires (40_combine.md R91). -/
  | fwd
  /-- BWD (format UOP): the backward combine on the operands the current step wires (40_combine.md R92). -/
  | bwd
  /-- IDLE (format STEP, code 0): the wait for a command (44_host_access.md R155). -/
  | idle
  /-- VALIDATE (code 1; 41_validator.md R101). -/
  | validate
  /-- ENC_P1 (code 2; 42_encoder.md R111). -/
  | encP1
  /-- ENC_P2 (code 3; 42_encoder.md R113). -/
  | encP2
  /-- ENC_W0 (code 4; 42_encoder.md R116). -/
  | encW0
  /-- ENC_W1 (code 5; 42_encoder.md R117). -/
  | encW1
  /-- DEC_U0 (code 6; 43_decoder.md R131). -/
  | decU0
  /-- DEC_U1 (code 7; 43_decoder.md R132). -/
  | decU1
  /-- DEC_P1 (code 8; 43_decoder.md R134). -/
  | decP1
  /-- DEC_P2 (code 9; 43_decoder.md R136). -/
  | decP2
  /-- RD (format HOST): read a register (44_host_access.md R151). -/
  | rd (r : Reg)
  /-- WR: write a register; a write to CMD issues a command (44_host_access.md R152). -/
  | wr (r : Reg) (v : Word)
  /-- RDB: read a block store word (44_host_access.md R153). -/
  | rdb (n : Word)
  /-- WRB: write a block store word (44_host_access.md R154). -/
  | wrb (n v : Word)
deriving DecidableEq, Repr

/-- The raw form of an instruction: each format has its own encoding, and the same bits mean different things in
different formats (30_encoding.md R70; assumption 7). -/
inductive Encoded where
  /-- A command word `{DP, IP, KP, OP}` (30_encoding.md R73, R74). -/
  | cmd (w : BitVec 4)
  /-- A micro-operation's direction bit (30_encoding.md R80). -/
  | uop (dir : BitVec 1)
  /-- A step kind's PHASE code (30_encoding.md R81). -/
  | step (code : BitVec 4)
  /-- A host transaction: the header `{S, W}`, then a register number or word index, then the data written. In a read
  the data is what comes back, so what stands here is not looked at (30_encoding.md R71). -/
  | host (hdr : BitVec 2) (addr data : Word)
deriving DecidableEq, Repr

end Sys2Proof
end

