-- ==== Sys2Proof/Decode.lean ====
section
/-! DEFINITION. The decoder, total on every raw form and rejecting by name, then the encoder, both written from
30_encoding.md R71 to R83, and the host's probe `decodeTableWord`. -/

namespace Sys2Proof

/-- Why a raw form is no instruction. -/
inductive DecodeError where
  /-- Register numbers 6 and 7 are reserved (30_encoding.md R83 b; 93_implementation_defined.md U2). -/
  | reservedRegister (n : Word)
  /-- A register number is 3 bits (30_encoding.md R71). -/
  | registerNumberTooWide (n : Word)
  /-- PHASE codes 10 to 15 are unreachable (30_encoding.md R83 e). -/
  | unreachablePhaseCode (code : BitVec 4)
deriving DecidableEq, Repr

/-! ## Register numbers (30_encoding.md R72) -/

/-- The register of a register number. -/
def decodeReg (n : Word) : Except DecodeError Reg :=
  match n.toNat with
  | 0 => .ok .klo
  | 1 => .ok .khi
  | 2 => .ok .iv
  | 3 => .ok .len
  | 4 => .ok .cmd
  | 5 => .ok .status
  | 6 | 7 => .error (.reservedRegister n)
  | _ => .error (.registerNumberTooWide n)

/-- The number of a register. -/
def Reg.number : Reg → Word
  | .klo => 0#32
  | .khi => 1#32
  | .iv => 2#32
  | .len => 3#32
  | .cmd => 4#32
  | .status => 5#32

/-! ## The command word (30_encoding.md R74) -/

/-- OP, bit 0 of a command word: 0 ENCODE, 1 DECODE. -/
def opBit (w : BitVec 4) : Bool := w.getLsbD 0
/-- KP, bit 1: the key operand is supplied. -/
def kpBit (w : BitVec 4) : Bool := w.getLsbD 1
/-- IP, bit 2: the counter operand is supplied. -/
def ipBit (w : BitVec 4) : Bool := w.getLsbD 2
/-- DP, bit 3: the block sequence is supplied. -/
def dpBit (w : BitVec 4) : Bool := w.getLsbD 3

/-- The command word `{DP, IP, KP, OP}`. -/
def commandWord (op kp ip dp : Bool) : BitVec 4 :=
  BitVec.ofBool dp ++ BitVec.ofBool ip ++ BitVec.ofBool kp ++ BitVec.ofBool op

/-- Every one of the 16 command words is a defined command (30_encoding.md R73, R77). -/
def decodeCommand (w : BitVec 4) : Instr :=
  if opBit w then .decode (kpBit w) (ipBit w) (dpBit w) else .encode (kpBit w) (ipBit w) (dpBit w)

/-! ## The decoder -/

/-- The micro-operation of a DIR bit (30_encoding.md R80). -/
def decodeMicro (dir : BitVec 1) : Instr :=
  if dir = 0#1 then .fwd else .bwd

/-- The step kind of a PHASE code (30_encoding.md R81). -/
def decodeStep (code : BitVec 4) : Except DecodeError Instr :=
  match code.toNat with
  | 0 => .ok .idle
  | 1 => .ok .validate
  | 2 => .ok .encP1
  | 3 => .ok .encP2
  | 4 => .ok .encW0
  | 5 => .ok .encW1
  | 6 => .ok .decU0
  | 7 => .ok .decU1
  | 8 => .ok .decP1
  | 9 => .ok .decP2
  | _ => .error (.unreachablePhaseCode code)

/-- S, bit 1 of a host header: 0 REG, 1 BLK (30_encoding.md R71). -/
def spaceBit (hdr : BitVec 2) : Bool := hdr.getLsbD 1
/-- W, bit 0 of a host header: 0 read, 1 write. -/
def writeBit (hdr : BitVec 2) : Bool := hdr.getLsbD 0

/-- The host transaction of a tuple `(S, W, addr, data)` (30_encoding.md R71). -/
def decodeHost (hdr : BitVec 2) (addr data : Word) : Except DecodeError Instr :=
  match spaceBit hdr, writeBit hdr with
  | false, false => (decodeReg addr).map .rd
  | false, true => (decodeReg addr).map fun r => .wr r data
  | true, false => .ok (.rdb addr)
  | true, true => .ok (.wrb addr data)

/-- The instruction of a raw form, or why there is none. -/
def decode : Encoded → Except DecodeError Instr
  | .cmd w => .ok (decodeCommand w)
  | .uop dir => .ok (decodeMicro dir)
  | .step code => decodeStep code
  | .host hdr addr data => decodeHost hdr addr data

/-! ## The encoder -/

/-- The raw form of an instruction (30_encoding.md R71 to R81). The data of a read is what comes back, so none is
sent. -/
def encode : Instr → Encoded
  | .encode kp ip dp => .cmd (commandWord false kp ip dp)
  | .decode kp ip dp => .cmd (commandWord true kp ip dp)
  | .fwd => .uop 0#1
  | .bwd => .uop 1#1
  | .idle => .step 0#4
  | .validate => .step 1#4
  | .encP1 => .step 2#4
  | .encP2 => .step 3#4
  | .encW0 => .step 4#4
  | .encW1 => .step 5#4
  | .decU0 => .step 6#4
  | .decU1 => .step 7#4
  | .decP1 => .step 8#4
  | .decP2 => .step 9#4
  | .rd r => .host 0b00#2 r.number 0#32
  | .wr r v => .host 0b01#2 r.number v
  | .rdb n => .host 0b10#2 n 0#32
  | .wrb n v => .host 0b11#2 n v

/-! ## The opcode table's words -/

/-- The raw form that stands for a word of the opcode table. The four formats share their bit patterns (0x0 is
ENCODE, FWD, IDLE and RD) and no bit of a word names its format, so the width picks it: 1 bit UOP, 2 bits HOST
(register or index 0, data 0), and any wider word STEP where it is a PHASE code, else CMD (assumption 7). -/
def tableForm (nbits w : Nat) : Option Encoded :=
  match nbits with
  | 0 => none
  | 1 => if w < 2 then some (.uop (BitVec.ofNat 1 w)) else none
  | 2 => if w < 4 then some (.host (BitVec.ofNat 2 w) 0#32 0#32) else none
  | _ =>
    if w < 10 then some (.step (BitVec.ofNat 4 w))
    else if w < 16 then some (.cmd (BitVec.ofNat 4 w))
    else none

/-- What the decoder reads from a word of the opcode table. -/
def decodeTableWord (nbits w : Nat) : Option Instr :=
  match tableForm nbits w with
  | none => none
  | some e =>
    match decode e with
    | .ok i => some i
    | .error _ => none

end Sys2Proof
end

