-- ==== Sys2Proof/Machine/State.lean ====
section
/-! DEFINITION. The state of one block instance (10_state.md R20), the model's own fields beside it, the state after
reset (R36), and the reasons a step can stop. -/

namespace Sys2Proof.Machine

/-- PHASE: which kind of step comes next; "exactly these ten values" (10_state.md R31). -/
inductive Phase where
  | idle
  | validate
  | encP1
  | encP2
  | encW0
  | encW1
  | decU0
  | decU1
  | decP1
  | decP2
deriving DecidableEq, Repr

/-- The block store BLK: 32-bit words by word index (20_memory.md R50), no bytes (R52; assumption 9). `cells` lists,
by strictly rising index, the words that differ from what an unlisted index reads as (Ops.lean, `Memory.background`);
`resets` counts the reset events taken and numbers the free values they left (assumption 6). -/
structure Memory where
  resets : Nat
  cells : List (Nat × Word)
deriving DecidableEq, Repr

/-- What a read returns to the host (30_encoding.md R71), "at the width of the register or 32 bits for a block store
word": STATUS is 4 bits wide. -/
inductive Reply where
  | word (v : Word)
  | status (v : BitVec 4)
deriving DecidableEq, Repr

/-- What the world outside the core does next (assumption 2). -/
inductive HostEvent where
  /-- The host performs one transaction, the tuple `(S, W, addr, data)` (44_host_access.md R150). -/
  | transaction (hdr : BitVec 2) (addr data : Word)
  /-- The host issues a command word and takes the atomic view of it (44_host_access.md R157). -/
  | command (w : BitVec 4)
  /-- The host lets the core take one step. -/
  | coreTurn
  /-- The host polls STATUS until BUSY reads 0 (30_encoding.md R85, WAIT). -/
  | wait
  /-- Reset is asserted (70_reset_and_hazards.md R190). -/
  | reset
deriving DecidableEq, Repr

/-- The state: the spec's registers and store (10_state.md R20), then the model's own three fields. -/
structure State where
  /-- KLO, the key's low part (10_state.md R21). -/
  klo : Word
  /-- KHI, the key's high part (R22). -/
  khi : Word
  /-- IV, the running counter (R23). -/
  iv : Word
  /-- LEN, the number of blocks (R25). -/
  len : Word
  /-- BLK, the block store (20_memory.md R51). -/
  blk : Memory
  /-- STATUS.CODE (R26). STATUS.BUSY is a function of `phase`, no field. -/
  code : BitVec 3
  /-- T, the local wrap counter (R29). -/
  t : Word
  /-- PHASE, the kind of the next step (R30, R31). -/
  phase : Phase
  /-- IDX, the block index of the next pass step (R32). -/
  idx : Word
  /-- CMDR, the latched command word (R33). -/
  cmdr : BitVec 4
  /-- The model's own: the parameters of the hardware (assumption 1). No step writes it. -/
  cfg : Config
  /-- The model's own: what the host and the reset line do from here on, in order (assumption 2). -/
  host : List HostEvent
  /-- The model's own: what reads have returned to the host, the newest first (assumption 5). -/
  replies : List Reply
deriving DecidableEq, Repr

/-- Why the machine stops by itself. The hardware has no such event (its four exceptions are status codes after which
it goes on, 60_exceptions.md R170). -/
inductive Fault where
  /-- A core step forms a block store index at or above MAXLEN. Raised by the pass steps, ENC_W1, DEC_U0, FWD and
  BWD, only in states that no run reaches (42_encoder.md R120, 43_decoder.md R139). Safe (assumption 8). -/
  | storeIndexOutOfRange (n : Nat)
deriving DecidableEq, Repr

/-- Why the model gives no next state: the situations 93_implementation_defined.md says a model refuses. -/
inductive Refusal where
  /-- An instruction with no meaning yet (none is left). Safe. -/
  | notModelled (mnemonic : String)
  /-- U1: RD, WR, RDB, WRB or a command while BUSY, RD STATUS excepted. Raised by the four transactions, ENCODE and
  DECODE. Safe. -/
  | hostAccessWhileBusy
  /-- U3: RD of the write-only CMD. Raised by RD. Safe. -/
  | readOfWriteOnly
  /-- U3: WR to the read-only STATUS. Raised by WR. Safe. -/
  | writeOfReadOnly
  /-- U4: a command issued with LEN above MAXLEN. Raised by WR to CMD, ENCODE and DECODE. Safe. -/
  | lengthAboveStore
  /-- U4: a host index at or above MAXLEN. Raised by RDB and WRB. Safe. -/
  | indexAboveStore (n : Word)
  /-- FWD or BWD where the current step wires no operands, IDLE and VALIDATE (30_encoding.md R81: "none"). Raised by
  FWD and BWD executed on their own, which the sequencer never does. Safe (assumption 12). -/
  | noOperandsWired
  /-- A raw form that is no instruction (U2: register numbers 6 and 7). Raised by the step. Safe. -/
  | undecodable (e : DecodeError)
deriving DecidableEq, Repr

/-- The three outcomes of a step. -/
abbrev Result := Host.Outcome State Fault Refusal

/-- The machine right after reset: PHASE = IDLE, hence BUSY = 0 (10_state.md R36). The spec leaves every other value
unspecified; here each is 0 by the model's choice (assumptions 3 and 4, unsafe). A reset EVENT leaves free values
instead (Ops.lean, `assertReset`). -/
def State.reset : State where
  klo := 0#32
  khi := 0#32
  iv := 0#32
  len := 0#32
  blk := ⟨0, []⟩
  code := 0#3
  t := 0#32
  phase := .idle
  idx := 0#32
  cmdr := 0#4
  cfg := Config.default
  host := []
  replies := []

end Sys2Proof.Machine
end

