-- ==== Sys2Proof/Machine/Flags.lean ====
section
/-! DEFINITION. The status register and the tests a step makes. The block has no flags and no condition codes
(10_state.md R34): a step's tests are evaluated inside it and stored nowhere. -/

namespace Sys2Proof.Machine

/-- The result of a command (10_state.md R26). -/
inductive Status where
  | success
  | invalidKey
  | invalidIv
  | invalidData
  | invalidLength
deriving DecidableEq, Repr

/-- The status codes (30_encoding.md R78). -/
def Status.code : Status → BitVec 3
  | .success => 0#3
  | .invalidKey => 1#3
  | .invalidIv => 2#3
  | .invalidData => 3#3
  | .invalidLength => 4#3

/-- The status a code names (30_encoding.md R78); 5 to 7 name none. -/
def statusOfCode (c : BitVec 3) : Option Status :=
  match c.toNat with
  | 0 => some .success
  | 1 => some .invalidKey
  | 2 => some .invalidIv
  | 3 => some .invalidData
  | 4 => some .invalidLength
  | _ => none

/-- STATUS.BUSY, "1 exactly when `PHASE != IDLE`" (10_state.md R26). -/
def State.busy (s : State) : Bool := decide (s.phase ≠ .idle)

/-- STATUS as the host reads it, `{BUSY, CODE}` (30_encoding.md R79). -/
def State.statusWord (s : State) : BitVec 4 := BitVec.ofBool s.busy ++ s.code

/-- The boundary test `IDX == 0`, the low end of a pass. -/
abbrev State.atLowEnd (s : State) : Prop := s.idx = 0#32

/-- The boundary test `IDX == LEN-1`, the high end of a pass: ordinary integer arithmetic (00_scope.md R15). -/
abbrev State.atHighEnd (s : State) : Prop := s.idx.toNat + 1 = s.len.toNat

/-- The validator's four checks in priority order: the first that fails decides the status (41_validator.md R101;
60_exceptions.md R172). -/
def firstFailure (kp ip dp : Bool) (len : Word) : Option Status :=
  if kp = false then some .invalidKey
  else if ip = false then some .invalidIv
  else if dp = false then some .invalidData
  else if len = 0#32 then some .invalidLength
  else none

end Sys2Proof.Machine
end

