-- ==== Sys2Proof/Machine/Ops.lean ====
section
/-! DEFINITION. The named operations over the state: arithmetic, the block store, one-field updates, raising an
exception, issuing a command, answering a read, and the reset event. -/

namespace Sys2Proof.Machine

/-! ## Arithmetic -/

/-- The two combine flavours, the DIR bit (30_encoding.md R80). -/
inductive Dir where
  | fwd
  | bwd
deriving DecidableEq, Repr

/-- FWD(c, a, b): the XOR uses the counter before the update, which steps up by one (40_combine.md R91). -/
def forwardCombine (c a b : Word) : Word × Word := (a ^^^ b ^^^ c, c + 1#32)

/-- BWD(c, a, b): the counter steps down by one first, and the XOR uses it after the update (40_combine.md R92). -/
def backwardCombine (c a b : Word) : Word × Word := (a ^^^ b ^^^ (c - 1#32), c - 1#32)

/-- The combine of a flavour. -/
def combine : Dir → Word → Word → Word → Word × Word
  | .fwd => forwardCombine
  | .bwd => backwardCombine

/-- PROD, the low 32 bits of the product of the key parts (10_state.md R27). -/
def keyProduct (klo khi : Word) : Word := klo * khi

/-! ## The block store -/

/-- What an unlisted index reads as: 0 before any reset event (assumption 4), a free value after one (assumption 6). -/
def Memory.background (m : Memory) (i : Nat) : Word :=
  match m.resets with
  | 0 => 0#32
  | n + 1 => Config.blkAfterReset n i

/-- The listed word at index `i`, if there is one. -/
def lookupCell (i : Nat) : List (Nat × Word) → Option Word
  | [] => none
  | (j, v) :: rest => if j = i then some v else lookupCell i rest

/-- MemRead(i, 1) (00_scope.md R16). -/
def Memory.read (m : Memory) (i : Nat) : Word := (lookupCell i m.cells).getD (m.background i)

/-- The cells without index `i`. -/
def eraseCell (i : Nat) : List (Nat × Word) → List (Nat × Word)
  | [] => []
  | (j, v) :: rest => if j = i then eraseCell i rest else (j, v) :: eraseCell i rest

/-- The cells with `v` at index `i`, in rising order. -/
def putCell (i : Nat) (v : Word) : List (Nat × Word) → List (Nat × Word)
  | [] => [(i, v)]
  | (j, w) :: rest =>
    if i < j then (i, v) :: (j, w) :: rest
    else if i = j then (i, v) :: rest
    else (j, w) :: putCell i v rest

/-- MemWrite(i, 1, v) (00_scope.md R16). Writing what an unlisted index reads as removes the entry, so that equal
stores are equal data. -/
def Memory.write (m : Memory) (i : Nat) (v : Word) : Memory :=
  if v = m.background i then { m with cells := eraseCell i m.cells } else { m with cells := putCell i v m.cells }

/-- Every listed index is at or above `lo`, and they rise strictly. -/
def cellsRising (lo : Nat) : List (Nat × Word) → Bool
  | [] => true
  | (j, _) :: rest => decide (lo ≤ j) && cellsRising (j + 1) rest

/-- The canonical form of a store: rising indices, no word equal to what its index reads as unlisted. -/
def Memory.wf (m : Memory) : Bool :=
  cellsRising 0 m.cells && m.cells.all fun c => decide (c.2 ≠ m.background c.1)

/-- Every listed index is below `bound`: the store has MAXLEN words (20_memory.md R50). -/
def Memory.below (m : Memory) (bound : Nat) : Bool := m.cells.all fun c => decide (c.1 < bound)

/-! ## One-field updates -/

/-- KLO <- v. -/
def State.setKlo (s : State) (v : Word) : State := { s with klo := v }
/-- KHI <- v. -/
def State.setKhi (s : State) (v : Word) : State := { s with khi := v }
/-- IV <- v. -/
def State.setIv (s : State) (v : Word) : State := { s with iv := v }
/-- LEN <- v. -/
def State.setLen (s : State) (v : Word) : State := { s with len := v }
/-- BLK[i] <- v. -/
def State.setWord (s : State) (i : Nat) (v : Word) : State := { s with blk := s.blk.write i v }
/-- STATUS.CODE <- the code of x. -/
def State.setStatus (s : State) (x : Status) : State := { s with code := x.code }
/-- T <- v. -/
def State.setT (s : State) (v : Word) : State := { s with t := v }
/-- PHASE <- p. -/
def State.setPhase (s : State) (p : Phase) : State := { s with phase := p }
/-- IDX <- i. -/
def State.setIdx (s : State) (i : Word) : State := { s with idx := i }
/-- CMDR <- w. -/
def State.setCmdr (s : State) (w : BitVec 4) : State := { s with cmdr := w }
/-- The input still to come becomes `es`. -/
def State.setHost (s : State) (es : List HostEvent) : State := { s with host := es }
/-- A read returns `r` to the host. -/
def State.answer (s : State) (r : Reply) : State := { s with replies := r :: s.replies }

/-! ## Exceptions -/

/-- `raise X`: STATUS.CODE <- the code of X, PHASE <- IDLE, "nothing else is written" (60_exceptions.md R173). There is
no saved state, no vector and no return (R175). -/
def State.raise (s : State) (x : Status) : State := (s.setStatus x).setPhase .idle

/-- The end of a command that succeeds: STATUS.CODE <- Success, PHASE <- IDLE (10_state.md R26). -/
def State.succeed (s : State) : State := (s.setStatus .success).setPhase .idle

/-! ## The host's side -/

/-- The precondition `PHASE == IDLE` of the host's transitions (93_implementation_defined.md U1). -/
def whenIdle (s : State) (r : Result) : Result :=
  if s.phase = .idle then r else .refused .hostAccessWhileBusy

/-- The precondition of a host index (93_implementation_defined.md U4). -/
def whenInStore (s : State) (n : Word) (r : Result) : Result :=
  if n.toNat < s.cfg.maxLen then r else .refused (.indexAboveStore n)

/-- The precondition of a command: LEN does not exceed the store (00_scope.md R12; 93_implementation_defined.md U4). -/
def whenLengthFits (s : State) (r : Result) : Result :=
  if s.len.toNat ≤ s.cfg.maxLen then r else .refused .lengthAboveStore

/-- Command issue: CMDR <- w, PHASE <- VALIDATE, and nothing else (44_host_access.md R155). -/
def State.issue (s : State) (w : BitVec 4) : State := (s.setCmdr w).setPhase .validate

/-! ## Reset -/

/-- The reset event (70_reset_and_hazards.md R190, R191; 93_implementation_defined.md U8): PHASE <- IDLE, and every
other register and every block store word takes a free value, numbered by the count of reset events (assumption 6).
What is the model's own (the parameters, the input, the replies) stays. -/
def State.assertReset (s : State) : State :=
  { s with
    klo := Config.kloAfterReset s.blk.resets
    khi := Config.khiAfterReset s.blk.resets
    iv := Config.ivAfterReset s.blk.resets
    len := Config.lenAfterReset s.blk.resets
    blk := ⟨s.blk.resets + 1, []⟩
    code := Config.codeAfterReset s.blk.resets
    t := Config.tAfterReset s.blk.resets
    phase := .idle
    idx := Config.idxAfterReset s.blk.resets
    cmdr := Config.cmdrAfterReset s.blk.resets }

end Sys2Proof.Machine
end

