-- ==== Sys2Proof/Machine/Operands.lean ====
section
/-! DEFINITION. How a step wires its combine micro-operation (30_encoding.md R81): where the counter, `a` and `b`
come from. The result always goes where `a` came from and the new counter where the counter came from. -/

namespace Sys2Proof.Machine

/-- Where the counter comes from and the new counter goes. -/
inductive CounterSource where
  /-- IV (the pass steps). -/
  | iv
  /-- T (ENC_W1, DEC_U1). -/
  | t
  /-- T, set to 0 first: the old value is not read (ENC_W0, DEC_U0). -/
  | tFromZero
deriving DecidableEq, Repr

/-- Where `a` comes from and the result goes. -/
inductive FirstSource where
  /-- BLK[x], x the value of IDX. -/
  | block
  /-- IV. -/
  | iv
deriving DecidableEq, Repr

/-- Where `b` comes from. -/
inductive SecondSource where
  /-- lower(x): KLO if x = 0, else BLK[x-1]. -/
  | lower
  /-- upper(x): KHI if x = LEN-1, else BLK[x+1]. -/
  | upper
  /-- PROD. -/
  | product
  /-- BLK[0]. -/
  | firstBlock
deriving DecidableEq, Repr

/-- One row of the wiring table. -/
structure Wiring where
  counter : CounterSource
  first : FirstSource
  second : SecondSource
deriving DecidableEq, Repr

/-- ENC_P1 and DEC_P2: IV, BLK[x], lower(x). -/
def lowerWiring : Wiring := ⟨.iv, .block, .lower⟩
/-- ENC_P2 and DEC_P1: IV, BLK[x], upper(x). -/
def upperWiring : Wiring := ⟨.iv, .block, .upper⟩

/-- The wiring table (30_encoding.md R81); IDLE and VALIDATE wire nothing. -/
def Phase.wiring : Phase → Option Wiring
  | .idle => none
  | .validate => none
  | .encP1 => some lowerWiring
  | .encP2 => some upperWiring
  | .encW0 => some ⟨.tFromZero, .iv, .product⟩
  | .encW1 => some ⟨.t, .iv, .firstBlock⟩
  | .decU0 => some ⟨.tFromZero, .iv, .firstBlock⟩
  | .decU1 => some ⟨.t, .iv, .product⟩
  | .decP1 => some upperWiring
  | .decP2 => some lowerWiring

/-- A core read of the store: an index at or above MAXLEN does not exist (20_memory.md R50; assumption 8). -/
def State.coreRead (s : State) (i : Nat) : Except Fault Word :=
  if i < s.cfg.maxLen then .ok (s.blk.read i) else .error (.storeIndexOutOfRange i)

/-- The counter operand. -/
def State.counterOperand (s : State) : CounterSource → Word
  | .iv => s.iv
  | .t => s.t
  | .tFromZero => 0#32

/-- The operand `a`. -/
def State.firstOperand (s : State) : FirstSource → Except Fault Word
  | .block => s.coreRead s.idx.toNat
  | .iv => .ok s.iv

/-- The operand `b`. -/
def State.secondOperand (s : State) : SecondSource → Except Fault Word
  | .lower => if s.atLowEnd then .ok s.klo else s.coreRead (s.idx.toNat - 1)
  | .upper => if s.atHighEnd then .ok s.khi else s.coreRead (s.idx.toNat + 1)
  | .product => .ok (keyProduct s.klo s.khi)
  | .firstBlock => s.coreRead 0

/-- The new counter goes back where the counter came from. -/
def State.putCounter (s : State) (v : Word) : CounterSource → State
  | .iv => s.setIv v
  | .t | .tFromZero => s.setT v

/-- The result goes back where `a` came from. -/
def State.putResult (s : State) (r : Word) : FirstSource → State
  | .block => s.setWord s.idx.toNat r
  | .iv => s.setIv r

/-- One combine micro-operation: all operands are read from the state before it (20_memory.md R58), then the result
and the new counter are written. -/
def microOp (d : Dir) (w : Wiring) (s : State) : Except Fault State :=
  match s.firstOperand w.first, s.secondOperand w.second with
  | .ok a, .ok b =>
    .ok ((s.putResult (combine d (s.counterOperand w.counter) a b).1 w.first).putCounter
      (combine d (s.counterOperand w.counter) a b).2 w.counter)
  | .error f, _ => .error f
  | .ok _, .error f => .error f

/-- A step: its micro-operation, then the sequencer's move. -/
def stepWith (d : Dir) (w : Wiring) (move : State → State) (s : State) : Result :=
  match microOp d w s with
  | .ok s' => .next (move s')
  | .error f => .fault f

/-- After a pass step with rising index: at the high end the next pass starts at the same index, else one up
(42_encoder.md R111, 43_decoder.md R134). -/
def State.moveUp (this after : Phase) (s : State) : State :=
  if s.atHighEnd then s.setPhase after else (s.setPhase this).setIdx (s.idx + 1#32)

/-- After a pass step with falling index: at the low end the pass is over, else one down (42_encoder.md R113,
43_decoder.md R136). -/
def State.moveDown (this : Phase) (finish : State → State) (s : State) : State :=
  if s.atLowEnd then finish s else (s.setPhase this).setIdx (s.idx - 1#32)

end Sys2Proof.Machine
end

