-- ==== Sys2Proof/Machine/Command.lean ====
section
/-! DEFINITION. The two commands as one function of the state at issue: the pseudocode of 42_encoder.md R110 and
43_decoder.md R130, taken in one step (the atomic view, 44_host_access.md R157). What the sequencer leaves in its
own registers at the end (PHASE = IDLE, IDX = 0, T = 2, CMDR the command word) is left here too, so that the two
views can be compared on the whole state (assumption 10). -/

namespace Sys2Proof.Machine

/-- A block store and a running counter, what the loops of the pseudocode carry. -/
abbrev Chain := Memory × Word

/-- One iteration at index `i` with second operand `b`: `(BLK[i], C) = combine(C, BLK[i], b)`. -/
def chainStep (d : Dir) (i : Nat) (b : Word) (p : Chain) : Chain :=
  (p.1.write i (combine d p.2 (p.1.read i) b).1, (combine d p.2 (p.1.read i) b).2)

/-- The second operand `(i == 0) ? KLO : BLK[i-1]`. -/
def lowerOf (klo : Word) (i : Nat) (m : Memory) : Word := if i = 0 then klo else m.read (i - 1)

/-- The second operand `(i == N-1) ? KHI : BLK[i+1]`. -/
def upperOf (khi : Word) (n i : Nat) (m : Memory) : Word := if i + 1 = n then khi else m.read (i + 1)

/-- `k` iterations with the index rising from `i`. -/
def risingPass (body : Nat → Chain → Chain) : Nat → Nat → Chain → Chain
  | 0, _, p => p
  | k + 1, i, p => risingPass body k (i + 1) (body i p)

/-- `k` iterations with the index falling from `k - 1` to 0. -/
def fallingPass (body : Nat → Chain → Chain) : Nat → Chain → Chain
  | 0, p => p
  | k + 1, p => fallingPass body k (body k p)

/-- ENCODE's two passes over `n` blocks (42_encoder.md R110). -/
def encodePasses (klo khi : Word) (n : Nat) (p : Chain) : Chain :=
  fallingPass (fun j q => chainStep .fwd j (upperOf khi n j q.1) q) n
    (risingPass (fun i q => chainStep .fwd i (lowerOf klo i q.1) q) n 0 p)

/-- DECODE's two passes over `n` blocks (43_decoder.md R130). -/
def decodePasses (klo khi : Word) (n : Nat) (p : Chain) : Chain :=
  fallingPass (fun k q => chainStep .bwd k (lowerOf klo k q.1) q) n
    (risingPass (fun i q => chainStep .bwd i (upperOf khi n i q.1) q) n 0 p)

/-- Two combine calls with a fresh local counter T from 0: the wrap and the unwrap (42_encoder.md R110, R119;
43_decoder.md R130). -/
def foldTwo (c x y : Word) : Word :=
  (forwardCombine (forwardCombine 0#32 c x).2 (forwardCombine 0#32 c x).1 y).1

/-- The encode transform: both passes, then the wrap with the product first and BLK[0] second. -/
def encodeChain (klo khi : Word) (n : Nat) (p : Chain) : Chain :=
  ((encodePasses klo khi n p).1,
    foldTwo (encodePasses klo khi n p).2 (keyProduct klo khi) ((encodePasses klo khi n p).1.read 0))

/-- The decode transform: the unwrap with BLK[0] first and the product second, then both passes. -/
def decodeChain (klo khi : Word) (n : Nat) (p : Chain) : Chain :=
  decodePasses klo khi n (p.1, foldTwo p.2 (p.1.read 0) (keyProduct klo khi))

/-- The whole command of word `w` with transform `f`: refused while BUSY (U1) or above the store (U4), else VALIDATE,
and on success the transform over LEN blocks. -/
def runCommand (f : Word → Word → Nat → Chain → Chain) (w : BitVec 4) (s : State) : Result :=
  whenIdle s <| whenLengthFits s <|
    match firstFailure (kpBit w) (ipBit w) (dpBit w) s.len with
    | some x => .next ((s.setCmdr w).raise x)
    | none => .next
      { s with
        blk := (f s.klo s.khi s.len.toNat (s.blk, s.iv)).1
        iv := (f s.klo s.khi s.len.toNat (s.blk, s.iv)).2
        code := Status.success.code
        t := 2#32
        idx := 0#32
        cmdr := w }

/-- ENCODE (42_encoder.md R110). -/
def execEncode (kp ip dp : Bool) (s : State) : Result :=
  runCommand encodeChain (commandWord false kp ip dp) s

/-- DECODE (43_decoder.md R130). -/
def execDecode (kp ip dp : Bool) (s : State) : Result :=
  runCommand decodeChain (commandWord true kp ip dp) s

end Sys2Proof.Machine
end

