-- ==== Sys2Proof/Machine/Decoder.lean ====
section
/-! DEFINITION. The four step kinds of DECODE (43_decoder.md). The unwrap combines forward, the passes backward
(40_combine.md R96). -/

namespace Sys2Proof.Machine

/-- DEC_U0 (43_decoder.md R131): the first ciphertext block is folded into IV, T starts from 0. -/
def execDecU0 (s : State) : Result :=
  stepWith .fwd ⟨.tFromZero, .iv, .firstBlock⟩ (fun s' => s'.setPhase .decU1) s

/-- DEC_U1 (43_decoder.md R132): the product is folded into IV; pass 1 starts at index 0. -/
def execDecU1 (s : State) : Result :=
  stepWith .fwd ⟨.t, .iv, .product⟩ (fun s' => (s'.setPhase .decP1).setIdx 0#32) s

/-- DEC_P1 (43_decoder.md R134): pass 1, index rising, the counter falling; it inverts the encoder's pass 2. -/
def execDecP1 (s : State) : Result :=
  stepWith .bwd upperWiring (State.moveUp .decP1 .decP2) s

/-- DEC_P2 (43_decoder.md R136): pass 2, index and counter falling; at index 0 the command ends with Success. -/
def execDecP2 (s : State) : Result :=
  stepWith .bwd lowerWiring (State.moveDown .decP2 State.succeed) s

end Sys2Proof.Machine
end

