-- ==== Sys2Proof/Machine/Encoder.lean ====
section
/-! DEFINITION. The four step kinds of ENCODE (42_encoder.md). Every one of them combines forward. -/

namespace Sys2Proof.Machine

/-- ENC_P1 (42_encoder.md R111): pass 1, index rising, seeded by KLO. -/
def execEncP1 (s : State) : Result :=
  stepWith .fwd lowerWiring (State.moveUp .encP1 .encP2) s

/-- ENC_P2 (42_encoder.md R113): pass 2, index falling, seeded by KHI; the counter still rises. -/
def execEncP2 (s : State) : Result :=
  stepWith .fwd upperWiring (State.moveDown .encP2 fun s' => s'.setPhase .encW0) s

/-- ENC_W0 (42_encoder.md R116): the product is folded into IV, T starts from 0. -/
def execEncW0 (s : State) : Result :=
  stepWith .fwd ⟨.tFromZero, .iv, .product⟩ (fun s' => s'.setPhase .encW1) s

/-- ENC_W1 (42_encoder.md R117): the first ciphertext block is folded into IV; the command ends with Success. -/
def execEncW1 (s : State) : Result :=
  stepWith .fwd ⟨.t, .iv, .firstBlock⟩ State.succeed s

end Sys2Proof.Machine
end

