-- ==== Sys2Proof/Machine/HostAccess.lean ====
section
/-! DEFINITION. The host's four transactions (44_host_access.md R151 to R155). -/

namespace Sys2Proof.Machine

/-- RD (44_host_access.md R151): STATUS at any time, KLO, KHI, IV and LEN in IDLE. No state of the block changes. -/
def execRd (r : Reg) (s : State) : Result :=
  match r with
  | .status => .next (s.answer (.status s.statusWord))
  | .klo => whenIdle s (.next (s.answer (.word s.klo)))
  | .khi => whenIdle s (.next (s.answer (.word s.khi)))
  | .iv => whenIdle s (.next (s.answer (.word s.iv)))
  | .len => whenIdle s (.next (s.answer (.word s.len)))
  | .cmd => whenIdle s (.refused .readOfWriteOnly)

/-- WR (44_host_access.md R152): the value as it is; a write to CMD issues the command in bits 3:0 (R155). -/
def execWr (r : Reg) (v : Word) (s : State) : Result :=
  whenIdle s <|
    match r with
    | .klo => .next (s.setKlo v)
    | .khi => .next (s.setKhi v)
    | .iv => .next (s.setIv v)
    | .len => .next (s.setLen v)
    | .cmd => whenLengthFits s (.next (s.issue (v.setWidth 4)))
    | .status => .refused .writeOfReadOnly

/-- RDB (44_host_access.md R153): any index below MAXLEN, whatever LEN is. -/
def execRdb (n : Word) (s : State) : Result :=
  whenIdle s <| whenInStore s n <| .next (s.answer (.word (s.blk.read n.toNat)))

/-- WRB (44_host_access.md R154): any index below MAXLEN, whatever LEN is. -/
def execWrb (n v : Word) (s : State) : Result :=
  whenIdle s <| whenInStore s n <| .next (s.setWord n.toNat v)

end Sys2Proof.Machine
end

