-- ==== Sys2Proof/Machine/Micro.lean ====
section
/-! DEFINITION. The two micro-operations by themselves: the combine on the operands the current step wires, without
the sequencer's move (30_encoding.md R80, R81; 40_combine.md). -/

namespace Sys2Proof.Machine

/-- A micro-operation on the wiring of the current step (assumption 12). -/
def microAlone (d : Dir) (s : State) : Result :=
  match s.phase.wiring with
  | some w => stepWith d w id s
  | none => .refused .noOperandsWired

/-- FWD (40_combine.md R91). -/
def execFwd (s : State) : Result := microAlone .fwd s

/-- BWD (40_combine.md R92). -/
def execBwd (s : State) : Result := microAlone .bwd s

end Sys2Proof.Machine
end

