-- ==== Sys2Proof/Machine/Sequencer.lean ====
section
/-! DEFINITION. The two step kinds that combine nothing: IDLE and VALIDATE. -/

namespace Sys2Proof.Machine

/-- IDLE: no command in progress; the core stays as it is until a CMD write (30_encoding.md R81, code 0). -/
def execIdle (s : State) : Result := .next s

/-- VALIDATE (41_validator.md R101): the first failing check raises its status; if all pass, ENCODE starts pass 1 at
index 0 and DECODE the unwrap (R104). -/
def execValidate (s : State) : Result :=
  match firstFailure (kpBit s.cmdr) (ipBit s.cmdr) (dpBit s.cmdr) s.len with
  | some x => .next (s.raise x)
  | none =>
    if opBit s.cmdr then .next (s.setPhase .decU0)
    else .next ((s.setPhase .encP1).setIdx 0#32)

end Sys2Proof.Machine
end

