-- ==== Sys2Proof/Machine/Dispatch.lean ====
section
/-! DEFINITION. The meaning of every instruction of the opcode table, one direct call each. -/

namespace Sys2Proof.Machine

def exec (i : Instr) (s : State) : Host.Outcome State Fault Refusal :=
  match i with
  | .encode kp ip dp => Sys2Proof.Machine.execEncode kp ip dp s
  | .decode kp ip dp => Sys2Proof.Machine.execDecode kp ip dp s
  | .fwd => Sys2Proof.Machine.execFwd s
  | .bwd => Sys2Proof.Machine.execBwd s
  | .idle => Sys2Proof.Machine.execIdle s
  | .validate => Sys2Proof.Machine.execValidate s
  | .encP1 => Sys2Proof.Machine.execEncP1 s
  | .encP2 => Sys2Proof.Machine.execEncP2 s
  | .encW0 => Sys2Proof.Machine.execEncW0 s
  | .encW1 => Sys2Proof.Machine.execEncW1 s
  | .decU0 => Sys2Proof.Machine.execDecU0 s
  | .decU1 => Sys2Proof.Machine.execDecU1 s
  | .decP1 => Sys2Proof.Machine.execDecP1 s
  | .decP2 => Sys2Proof.Machine.execDecP2 s
  | .rd r => Sys2Proof.Machine.execRd r s
  | .wr r v => Sys2Proof.Machine.execWr r v s
  | .rdb n => Sys2Proof.Machine.execRdb n s
  | .wrb n v => Sys2Proof.Machine.execWrb n v s

end Sys2Proof.Machine
end

