-- ==== Sys2Proof/Machine/Fetch.lean ====
section
/-! DEFINITION. What a step does next. The block fetches no instructions (20_memory.md R61): the sequencer's position
picks the core's step, and the input still to come (field `host`) says whose turn it is (assumption 2). -/

namespace Sys2Proof.Machine

/-- The PHASE codes (30_encoding.md R81). -/
def Phase.stepCode : Phase → BitVec 4
  | .idle => 0#4
  | .validate => 1#4
  | .encP1 => 2#4
  | .encP2 => 3#4
  | .encW0 => 4#4
  | .encW1 => 5#4
  | .decU0 => 6#4
  | .decU1 => 7#4
  | .decP1 => 8#4
  | .decP2 => 9#4

/-- The phase of a PHASE code, if there is one. -/
def phaseOfCode (code : BitVec 4) : Option Phase :=
  match code.toNat with
  | 0 => some .idle
  | 1 => some .validate
  | 2 => some .encP1
  | 3 => some .encP2
  | 4 => some .encW0
  | 5 => some .encW1
  | 6 => some .decU0
  | 7 => some .decU1
  | 8 => some .decP1
  | 9 => some .decP2
  | _ => none

/-- What happens next: an instruction's raw form, run on a state, or the reset event. -/
inductive Fetched where
  | instr (e : Encoded) (s : State)
  | reset (s : State)
deriving DecidableEq, Repr

/-- The raw form of the core's next step. -/
def State.coreForm (s : State) : Encoded := .step s.phase.stepCode

/-- RD STATUS as a transaction (30_encoding.md R71, R72). -/
def readStatusForm : Encoded := .host 0b00#2 5#32 0#32

/-- Whose turn it is. With no input left the core runs on by itself (44_host_access.md R155, R164). An event is taken
off the input when it happens; WAIT stays until a read of STATUS would show BUSY = 0 and is then that read
(30_encoding.md R85; assumption 10). -/
def fetch (s : State) : Fetched :=
  match s.host with
  | [] => .instr s.coreForm s
  | .coreTurn :: rest => .instr s.coreForm (s.setHost rest)
  | .transaction hdr addr data :: rest => .instr (.host hdr addr data) (s.setHost rest)
  | .command w :: rest => .instr (.cmd w) (s.setHost rest)
  | .wait :: rest =>
    if s.phase = .idle then .instr readStatusForm (s.setHost rest) else .instr s.coreForm s
  | .reset :: rest => .reset (s.setHost rest)

/-- Decode a raw form and run it. -/
def runForm (e : Encoded) (s : State) : Result :=
  match decode e with
  | .ok i => exec i s
  | .error err => .refused (.undecodable err)

/-- Make the next step take a raw form (what a load is on this hardware, assumption 7): a transaction or a command
word is put in front of the input; a step kind is selected by setting PHASE and giving the core the turn; a
micro-operation is never fetched, so the pass-1 step of its direction is selected. -/
def State.select (s : State) : Encoded → State
  | .host hdr addr data => s.setHost (.transaction hdr addr data :: s.host)
  | .cmd w => s.setHost (.command w :: s.host)
  | .uop dir => (s.setPhase (if dir = 0#1 then .encP1 else .decP1)).setHost (.coreTurn :: s.host)
  | .step code =>
    match phaseOfCode code with
    | some p => (s.setPhase p).setHost (.coreTurn :: s.host)
    | none => s

end Sys2Proof.Machine
end

