-- ==== Sys2Proof/Machine/Step.lean ====
section
/-! DEFINITION. One step of the machine: whoever's turn it is acts once (44_host_access.md R164). -/

namespace Sys2Proof.Machine

/-- One step. -/
def step (s : State) : Host.Outcome State Fault Refusal :=
  match fetch s with
  | .instr e s' => runForm e s'
  | .reset s' => .next s'.assertReset

/-- The state whose next step takes the opcode table's word `w` (Fetch.lean, `State.select`; assumption 7). A word
that is no instruction leaves the state as it is. -/
def State.withFetchWord (s : State) (nbits w : Nat) : State :=
  match tableForm nbits w with
  | some e => s.select e
  | none => s

end Sys2Proof.Machine
end

