-- ==== Sys2Proof/Machine/HostCalls.lean ====
section
/-! DEFINITION. Host programs: the notation of 30_encoding.md R85, and the lines of the source's two calls
(44_host_access.md R159, R160). What the host writes, as input for the machine; Calls.lean runs the calls. -/

namespace Sys2Proof.Machine

/-- One line of a host program (30_encoding.md R85). -/
inductive HostLine where
  | wr (r : Reg) (v : Word)
  | rd (r : Reg)
  | wrb (n v : Word)
  | rdb (n : Word)
  /-- `ENCODE list`: which of k, i, d are listed. -/
  | encodeList (k i d : Bool)
  /-- `DECODE list`. -/
  | decodeList (k i d : Bool)
  | wait
deriving DecidableEq, Repr

/-- The event of a line. `ENCODE list` and `DECODE list` spell `WR CMD, {DP, IP, KP, OP}` (30_encoding.md R86). -/
def HostLine.event : HostLine → HostEvent
  | .wr r v => .transaction 0b01#2 r.number v
  | .rd r => .transaction 0b00#2 r.number 0#32
  | .wrb n v => .transaction 0b11#2 n v
  | .rdb n => .transaction 0b10#2 n 0#32
  | .encodeList k i d => .transaction 0b01#2 4#32 ((commandWord false k i d).setWidth 32)
  | .decodeList k i d => .transaction 0b01#2 4#32 ((commandWord true k i d).setWidth 32)
  | .wait => .wait

/-- A host program as the input of the machine. -/
def hostProgram (lines : List HostLine) : List HostEvent := lines.map HostLine.event

/-- The arguments of a call: null or a value (44_host_access.md R159). -/
structure CallArgs where
  /-- `low` and `high`. -/
  key : Option (Word × Word)
  iv : Option Word
  blocks : Option (List Word)
  length : Word
deriving DecidableEq, Repr

/-- `WRB n, blocks[n]` for the values of a list, from index `n`. -/
def writeBlocks : Nat → List Word → List HostLine
  | _, [] => []
  | n, v :: rest => .wrb (BitVec.ofNat 32 n) v :: writeBlocks (n + 1) rest

/-- `RDB n` for `k` indices, from index `n`. -/
def readBlocks : Nat → Nat → List HostLine
  | _, 0 => []
  | n, k + 1 => .rdb (BitVec.ofNat 32 n) :: readBlocks (n + 1) k

/-- A call up to and including its WAIT: the operands that are not null, the length, the command with the matching
present bits (44_host_access.md R159; R160 for `decode`). -/
def callLines (op : Bool) (a : CallArgs) : List HostLine :=
  (match a.key with
    | some k => [.wr .klo k.1, .wr .khi k.2]
    | none => []) ++
  (match a.iv with
    | some v => [.wr .iv v]
    | none => []) ++
  [.wr .len a.length] ++
  (match a.blocks with
    | some bs => writeBlocks 0 (bs.take a.length.toNat)
    | none => []) ++
  [if op then .decodeList a.key.isSome a.iv.isSome a.blocks.isSome
   else .encodeList a.key.isSome a.iv.isSome a.blocks.isSome] ++
  [.wait]

/-- The events of a call up to and including its WAIT, after which the host decides (Calls.lean). -/
def callEvents (op : Bool) (a : CallArgs) : List HostEvent := hostProgram (callLines op a)

/-- What the host reads back when the status is Success: IV, then the blocks (44_host_access.md R159). -/
def readBackLines (length : Word) : List HostLine := .rd .iv :: readBlocks 0 length.toNat

/-- The block store with the values of a list written from index `n`. -/
def Memory.writeFrom : Nat → List Word → Memory → Memory
  | _, [], m => m
  | n, v :: rest, m => Memory.writeFrom (n + 1) rest (m.write n v)

/-- The state a call's writes leave: an operand that is null is not written (44_host_access.md R159). -/
def CallArgs.load (a : CallArgs) (s : State) : State :=
  { s with
    klo := (a.key.map Prod.fst).getD s.klo
    khi := (a.key.map Prod.snd).getD s.khi
    iv := a.iv.getD s.iv
    len := a.length
    blk := Memory.writeFrom 0 ((a.blocks.getD []).take a.length.toNat) s.blk }

/-- The command of a call, with the present bits of the operands that are not null. -/
def CallArgs.command (op : Bool) (a : CallArgs) : Instr :=
  if op then .decode a.key.isSome a.iv.isSome a.blocks.isSome
  else .encode a.key.isSome a.iv.isSome a.blocks.isSome

/-- A 64-bit key is split by the host: `low = raw mod 2^32`, `high = raw div 2^32` (44_host_access.md R162). -/
def splitKey (raw : BitVec 64) : Word × Word := (raw.setWidth 32, (raw >>> 32).setWidth 32)

end Sys2Proof.Machine
end

