-- ==== Sys2Proof/Machine/Calls.lean ====
section
/-! DEFINITION. The source's two calls, whole (44_host_access.md R159, R160): the writes, the command and WAIT are run
on the machine, the host looks at `s[2:0]`, and only on Success are IV and the blocks read back (assumption 17). -/

namespace Sys2Proof.Machine

/-- What a call leaves behind. -/
structure CallResult where
  /-- "return status named by s[2:0]"; none for a code that names no status, which no command leaves. -/
  status : Option Status
  /-- The caller's variables `key`, `iv`, `blocks` and `length` after the call. -/
  args : CallArgs
  /-- The block after the call. -/
  block : State
deriving DecidableEq, Repr

/-- A call's outcome: its result, or the stop the machine came to. -/
abbrev CallOutcome := Host.Outcome CallResult Fault Refusal

/-- Go on from the state a run ended in; a stop of the machine is the call's stop. -/
def thenCall (r : Result) (f : State → CallOutcome) : CallOutcome :=
  match r with
  | .next s => f s
  | .fault x => .fault x
  | .refused x => .refused x

/-- Run the machine until the host's input is used up, at most `fuel` steps. -/
def runHost : Nat → State → Result
  | 0, s => .next s
  | fuel + 1, s =>
    if s.host = [] then .next s
    else match step s with
      | .next t => runHost fuel t
      | .fault x => .fault x
      | .refused x => .refused x

/-- Run a list of events. Every event is one step, but for WAIT, which takes at most `2*LEN + 3` steps of the core
before its own (44_host_access.md R156). -/
def runEvents (es : List HostEvent) (length : Word) (s : State) : Result :=
  runHost (es.length + (2 * length.toNat + 3)) (s.setHost es)

/-- The status named by `s[2:0]`, `s` the newest reply. -/
def State.reportedStatus (s : State) : Option Status :=
  match s.replies with
  | .status w :: _ => statusOfCode (w.extractLsb' 0 3)
  | _ => none

/-- The word of a reply. -/
def Reply.word? : Reply → Option Word
  | .word v => some v
  | .status _ => none

/-- The words of the newest `k` replies, the oldest first. -/
def State.wordsRead (s : State) (k : Nat) : List Word := (s.replies.take k).reverse.filterMap Reply.word?

/-- The caller's variables after `iv = RD IV` and `blocks[n] = RDB n`, from the words read in that order. Values of
the array from `length` on stay as they are. -/
def CallArgs.readBack (a : CallArgs) : List Word → CallArgs
  | [] => a
  | v :: words => { a with iv := some v, blocks := a.blocks.map fun bs => words ++ bs.drop words.length }

/-- What the host does after WAIT (44_host_access.md R159): on Success it reads back; on any other status "the
caller's `iv` and `blocks` are not read back and so keep their values". -/
def finishCall (a : CallArgs) (s : State) : CallOutcome :=
  match s.reportedStatus with
  | some .success =>
    thenCall (runEvents (hostProgram (readBackLines a.length)) 0#32 s) fun t =>
      .next ⟨some .success, a.readBack (t.wordsRead (a.length.toNat + 1)), t⟩
  | st => .next ⟨st, a, s⟩

/-- A whole call on a block: `encode` or, with `op`, `decode`. -/
def runCall (op : Bool) (a : CallArgs) (s : State) : CallOutcome :=
  thenCall (runEvents (callEvents op a) a.length s) (finishCall a)

/-- `encode(key, iv, blocks, length)` (44_host_access.md R159). -/
def encodeCall (a : CallArgs) (s : State) : CallOutcome := runCall false a s

/-- `decode(key, iv, blocks, length)` (44_host_access.md R160). -/
def decodeCall (a : CallArgs) (s : State) : CallOutcome := runCall true a s

end Sys2Proof.Machine
end

