-- ==== Sys2Proof/WellFormed.lean ====
section
/-! DEFINITION. Which instructions the spec gives a meaning: the operand ranges of 44_host_access.md R151 to R154.
Each check has a name; an instruction of another format has no operand that could be out of range. -/

namespace Sys2Proof

/-- RD takes "a register number 0, 1, 2, 3 or 5": CMD cannot be read (44_host_access.md R151). -/
def Reg.readable : Reg → Bool
  | .cmd => false
  | .klo | .khi | .iv | .len | .status => true

/-- WR takes "a register number 0, 1, 2, 3 or 4": STATUS cannot be written (44_host_access.md R152). -/
def Reg.writable : Reg → Bool
  | .status => false
  | .klo | .khi | .iv | .len | .cmd => true

/-- WR takes "a value of the register's width": CMD is 4 bits wide, the others 32 (30_encoding.md R72). -/
def Reg.fits : Reg → Word → Bool
  | .cmd, v => decide (v.toNat < 16)
  | .klo, _ | .khi, _ | .iv, _ | .len, _ | .status, _ => true

/-- RDB and WRB take "a word index `0 <= index < MAXLEN`" (44_host_access.md R153, R154). -/
def Config.hasWord (c : Config) (n : Word) : Bool := decide (n.toNat < c.maxLen)

/-- A well-formed instruction, for a block of parameters `c`. -/
def Instr.wf (c : Config) : Instr → Bool
  | .rd r => r.readable
  | .wr r v => r.writable && r.fits v
  | .rdb n => c.hasWord n
  | .wrb n _ => c.hasWord n
  | .encode _ _ _ | .decode _ _ _ | .fwd | .bwd | .idle | .validate | .encP1 | .encP2 | .encW0 | .encW1
  | .decU0 | .decU1 | .decP1 | .decP2 => true

end Sys2Proof
end

