-- ==== Sys2Proof/Safety.lean ====
section
/-! DEFINITION. What the claims are stated in: which instructions are the core's own steps, which phases belong to
which command, the invariant of a block that its host uses by the rules, and the closed forms of the two transforms,
written from the spec's formulas and not from the machine. -/

namespace Sys2Proof.Machine

/-- `k` steps of the machine, stopping at the first fault or refusal. -/
abbrev stepsFrom (k : Nat) (s : State) : Result := Host.Core.run Sys2Proof.core k s

/-- The instruction of each phase (30_encoding.md R81). -/
def Phase.stepInstr : Phase → Instr
  | .idle => .idle
  | .validate => .validate
  | .encP1 => .encP1
  | .encP2 => .encP2
  | .encW0 => .encW0
  | .encW1 => .encW1
  | .decU0 => .decU0
  | .decU1 => .decU1
  | .decP1 => .decP1
  | .decP2 => .decP2

/-- The core's own instructions: the micro-operations and the step kinds (formats UOP and STEP). -/
def isCoreInstr : Instr → Bool
  | .encode _ _ _ | .decode _ _ _ | .rd _ | .wr _ _ | .rdb _ | .wrb _ _ => false
  | .fwd | .bwd | .idle | .validate | .encP1 | .encP2 | .encW0 | .encW1 | .decU0 | .decU1 | .decP1 | .decP2 => true

/-- The phases of ENCODE after VALIDATE (42_encoder.md R120). -/
def Phase.encoding : Phase → Bool
  | .encP1 | .encP2 | .encW0 | .encW1 => true
  | .idle | .validate | .decU0 | .decU1 | .decP1 | .decP2 => false

/-- The phases of DECODE after VALIDATE (43_decoder.md R139). -/
def Phase.decoding : Phase → Bool
  | .decU0 | .decU1 | .decP1 | .decP2 => true
  | .idle | .validate | .encP1 | .encP2 | .encW0 | .encW1 => false

/-- The four pass phases, in which IDX is meaningful (10_state.md R32). -/
def Phase.inPass : Phase → Bool
  | .encP1 | .encP2 | .decP1 | .decP2 => true
  | .idle | .validate | .encW0 | .encW1 | .decU0 | .decU1 => false

/-- The phases of the second wrap and second unwrap call, which find T = 1 (42_encoder.md R117, 43_decoder.md R132). -/
def Phase.secondFold : Phase → Bool
  | .encW1 | .decU1 => true
  | .idle | .validate | .encP1 | .encP2 | .encW0 | .decU0 | .decP1 | .decP2 => false

/-- The block store keeps its canonical form and holds no word at or above MAXLEN (20_memory.md R50). -/
abbrev State.StoreOk (s : State) : Prop :=
  s.cfg.InRange ∧ s.blk.wf = true ∧ s.blk.below s.cfg.maxLen = true

/-- While a command runs its length fits the store, and past VALIDATE all four checks have passed and the phase
belongs to the command latched in CMDR (41_validator.md R101; 10_state.md R37). -/
abbrev State.CommandOk (s : State) : Prop :=
  (s.phase ≠ .idle → s.len.toNat ≤ s.cfg.maxLen) ∧
  (s.phase.encoding = true → s.cmdr = 0xE#4 ∧ s.len ≠ 0#32) ∧
  (s.phase.decoding = true → s.cmdr = 0xF#4 ∧ s.len ≠ 0#32)

/-- "in the four pass phases ... `0 <= IDX <= LEN-1` always holds" (10_state.md R32), and T is 1 where the second
wrap or unwrap call begins. -/
abbrev State.SequencerOk (s : State) : Prop :=
  (s.phase.inPass = true → s.idx.toNat < s.len.toNat) ∧ (s.phase.secondFold = true → s.t = 1#32)

/-- The invariant of the machine. -/
abbrev State.Inv (s : State) : Prop := s.StoreOk ∧ s.CommandOk ∧ s.SequencerOk

/-! ## Closed forms -/

/-- A chain of combine calls on pairs `(a, b)`, from a counter: the results, and the counter at the end
(40_combine.md R93). -/
def combineRun (d : Dir) : Word → List (Word × Word) → List Word × Word
  | c, [] => ([], c)
  | c, (a, b) :: rest =>
    ((combine d c a b).1 :: (combineRun d (combine d c a b).2 rest).1, (combineRun d (combine d c a b).2 rest).2)

/-- `E`, the blocks between ENCODE's passes: `E[0] = P[0] ^ KLO ^ C0`, `E[i] = P[i] ^ E[i-1] ^ (C0 +32 i)`
(42_encoder.md R112). -/
def encodeMiddle (klo c0 : Word) (p : Nat → Word) : Nat → Word
  | 0 => p 0 ^^^ klo ^^^ c0
  | i + 1 => p (i + 1) ^^^ encodeMiddle klo c0 p i ^^^ (c0 + BitVec.ofNat 32 (i + 1))

/-- `C2`, the counter after the unwrap: `C_out ^ F[0] ^ PROD ^ 1` (43_decoder.md R133). -/
def unwrapped (klo khi cOut f0 : Word) : Word := cOut ^^^ f0 ^^^ (klo * khi) ^^^ 1#32

/-- `E`, the blocks between DECODE's passes: `E[N-1] = F[N-1] ^ KHI ^ (C2 -32 N)`,
`E[i] = F[i] ^ F[i+1] ^ (C2 -32 1 -32 i)` (43_decoder.md R135). -/
def decodeMiddle (khi c2 : Word) (n : Nat) (f : Nat → Word) (i : Nat) : Word :=
  f i ^^^ (if i + 1 = n then khi else f (i + 1)) ^^^ (c2 - 1#32 - BitVec.ofNat 32 i)

/-- `P`, the blocks after DECODE: `P[0] = E[0] ^ KLO ^ (C2 -32 2N)`, `P[k] = E[k] ^ E[k-1] ^ (C2 -32 2N +32 k)`
(43_decoder.md R137). -/
def decodeFinal (klo c2 : Word) (n : Nat) (e : Nat → Word) (k : Nat) : Word :=
  e k ^^^ (if k = 0 then klo else e (k - 1)) ^^^ (c2 - BitVec.ofNat 32 (2 * n) + BitVec.ofNat 32 k)

/-- How many steps a command takes after its CMD write: 1 for a validation failure, else `2*LEN + 3`
(44_host_access.md R156). -/
def commandSteps (w : BitVec 4) (len : Word) : Nat :=
  if (firstFailure (kpBit w) (ipBit w) (dpBit w) len).isSome then 1 else 2 * len.toNat + 3

end Sys2Proof.Machine
end

