-- ==== Sys2Proof/Certificates/Slice0/Obligations.lean ====
section
/-! DEFINITION. The statements for the provers, in the order of OBLIGATIONS.json: encodings, the combine primitive,
each instruction's result, the stops, whole commands, the sequencer, the invariant, and the machine as a whole. A
statement that gives the whole next state as a record update gives the frame with it: every field not named keeps its
value. -/

open Sys2Proof Sys2Proof.Machine

/-! ## Encodings -/

/-- A few words written out from 30_encoding.md: command words (R74), a direction bit (R80), PHASE codes (R81),
transactions (R71, R72). -/
def Obligations.TableWordsDecode : Prop :=
  decode (.cmd 0xE#4) = .ok (.encode true true true) ∧
  decode (.cmd 0xB#4) = .ok (.decode true false true) ∧
  decode (.cmd 0x4#4) = .ok (.encode false true false) ∧
  decode (.uop 1#1) = .ok .bwd ∧
  decode (.step 4#4) = .ok .encW0 ∧
  decode (.step 9#4) = .ok .decP2 ∧
  decode (.host 0b00#2 5#32 0#32) = .ok (.rd .status) ∧
  decode (.host 0b01#2 4#32 0xE#32) = .ok (.wr .cmd 0xE#32) ∧
  decode (.host 0b10#2 7#32 0#32) = .ok (.rdb 7#32) ∧
  decode (.host 0b11#2 1#32 0x22222222#32) = .ok (.wrb 1#32 0x22222222#32)

/-- Decoding an instruction's encoding gives the instruction back, for every instruction and every operand. -/
def Obligations.DecodeEncodeRoundTrip : Prop :=
  ∀ i : Instr, decode (encode i) = .ok i

/-- 30_encoding.md R73, R77: each of the 16 command words is a command, and no two words are the same command. -/
def Obligations.EveryCommandWordIsACommand : Prop :=
  ∀ w : BitVec 4, ∃ i, decode (.cmd w) = .ok i ∧ encode i = .cmd w

/-- 30_encoding.md R83: the raw forms with no meaning at decoding are exactly PHASE codes 10 to 15 and register
numbers above 5. -/
def Obligations.FormsWithNoInstruction : Prop :=
  ∀ e : Encoded, (∃ err, decode e = .error err) ↔
    (∃ code, e = .step code ∧ 10 ≤ code.toNat) ∨
      ∃ hdr addr data, e = .host hdr addr data ∧ hdr.toNat < 2 ∧ 6 ≤ addr.toNat

/-! ## The combine primitive -/

/-- 40_combine.md R93: with the same second operand each flavour undoes the other. -/
def Obligations.CombineFlavoursInvert : Prop :=
  ∀ c a b r c' : Word,
    (forwardCombine c a b = (r, c') → backwardCombine c' r b = (a, c)) ∧
    (backwardCombine c a b = (r, c') → forwardCombine c' r b = (a, c))

/-- 40_combine.md R93: a run of n forward calls ends at the counter plus n, and the backward run over its results in
reverse order, with the same second operands, gives the first operands back and the counter it began with. -/
def Obligations.ForwardRunUndoneBackward : Prop :=
  ∀ (c : Word) (ps : List (Word × Word)),
    (combineRun .fwd c ps).2 = c + BitVec.ofNat 32 ps.length ∧
    combineRun .bwd (combineRun .fwd c ps).2 (((combineRun .fwd c ps).1.zip (ps.map Prod.snd)).reverse) =
      ((ps.map Prod.fst).reverse, c)

/-- 10_state.md R27: PROD is the low 32 bits of the product of the two unsigned key parts, with the rule's four
examples. -/
def Obligations.KeyProductKeepsLowBits : Prop :=
  (∀ klo khi : Word, (keyProduct klo khi).toNat = klo.toNat * khi.toNat % 4294967296) ∧
  keyProduct 1#32 2#32 = 2#32 ∧
  keyProduct 0xFFFFFFFF#32 0xFFFFFFFF#32 = 1#32 ∧
  keyProduct 0x00010000#32 0x00010000#32 = 0#32 ∧
  keyProduct 0x01234567#32 0x89ABCDEF#32 = 0xC94E4629#32

/-- 40_combine.md R91 on the wirings of 30_encoding.md R81: FWD is `(a ^ b ^ c, c + 1)`, the old counter in the XOR,
and on the wiring of each of the eight step kinds that combine it writes the result where `a` came from and the new
counter where the counter came from, and nothing else. FWD as a pure function is R91's; FWD executed by itself, and on
the wirings of DEC_P1 and DEC_P2, where the spec has BWD, is the model's choice (assumption 12). -/
def Obligations.FwdOnEveryWiring : Prop :=
  (∀ c a b : Word, forwardCombine c a b = (a ^^^ b ^^^ c, c + 1#32)) ∧
  (∀ s : State, s.idx.toNat < s.len.toNat → s.len.toNat ≤ s.cfg.maxLen →
    (s.phase = .encP1 ∨ s.phase = .decP2 → exec .fwd s = .next
      { s with
        blk := s.blk.write s.idx.toNat
          (s.blk.read s.idx.toNat ^^^ lowerOf s.klo s.idx.toNat s.blk ^^^ s.iv)
        iv := s.iv + 1#32 }) ∧
    (s.phase = .encP2 ∨ s.phase = .decP1 → exec .fwd s = .next
      { s with
        blk := s.blk.write s.idx.toNat
          (s.blk.read s.idx.toNat ^^^ upperOf s.khi s.len.toNat s.idx.toNat s.blk ^^^ s.iv)
        iv := s.iv + 1#32 })) ∧
  ∀ s : State, 0 < s.cfg.maxLen →
    (s.phase = .encW0 → exec .fwd s = .next { s with iv := s.iv ^^^ s.klo * s.khi, t := 1#32 }) ∧
    (s.phase = .encW1 → exec .fwd s = .next { s with iv := s.iv ^^^ s.blk.read 0 ^^^ s.t, t := s.t + 1#32 }) ∧
    (s.phase = .decU0 → exec .fwd s = .next { s with iv := s.iv ^^^ s.blk.read 0, t := 1#32 }) ∧
    (s.phase = .decU1 → exec .fwd s = .next { s with iv := s.iv ^^^ s.klo * s.khi ^^^ s.t, t := s.t + 1#32 })

/-- 40_combine.md R92 on the wirings of 30_encoding.md R81: BWD is `(a ^ b ^ (c - 1), c - 1)`, the new counter in the
XOR, and on the wiring of the two step kinds that use it writes the block and IV, and nothing else. BWD as a pure
function is R92's; BWD executed by itself is the model's choice (assumption 12). The other six wirings are
BwdOnOtherWirings. -/
def Obligations.BwdOnPassWiring : Prop :=
  (∀ c a b : Word, backwardCombine c a b = (a ^^^ b ^^^ (c - 1#32), c - 1#32)) ∧
  ∀ s : State, s.idx.toNat < s.len.toNat → s.len.toNat ≤ s.cfg.maxLen →
    (s.phase = .decP1 → exec .bwd s = .next
      { s with
        blk := s.blk.write s.idx.toNat
          (s.blk.read s.idx.toNat ^^^ upperOf s.khi s.len.toNat s.idx.toNat s.blk ^^^ (s.iv - 1#32))
        iv := s.iv - 1#32 }) ∧
    (s.phase = .decP2 → exec .bwd s = .next
      { s with
        blk := s.blk.write s.idx.toNat
          (s.blk.read s.idx.toNat ^^^ lowerOf s.klo s.idx.toNat s.blk ^^^ (s.iv - 1#32))
        iv := s.iv - 1#32 })

/-- 30_encoding.md R81: in IDLE and VALIDATE no operands are wired, so a micro-operation on its own is refused by
name (the model's choice, assumption 12). -/
def Obligations.MicroOpWithoutOperandsRefused : Prop :=
  ∀ s : State, s.phase = .idle ∨ s.phase = .validate →
    exec .fwd s = .refused .noOperandsWired ∧ exec .bwd s = .refused .noOperandsWired

/-- 30_encoding.md R81: each of the eight combining steps is its micro-operation, of the flavour the table gives, and
then the table's next position. That the micro-operation is one by itself is the model's choice (assumption 12). -/
def Obligations.CombiningStepIsMicroOpThenMove : Prop :=
  ∀ s u : State,
    (s.phase = .encP1 → exec .fwd s = .next u →
      exec .encP1 s = .next (if u.idx.toNat + 1 = u.len.toNat then { u with phase := .encP2 } else
        { u with phase := .encP1, idx := u.idx + 1#32 })) ∧
    (s.phase = .encP2 → exec .fwd s = .next u →
      exec .encP2 s = .next (if u.idx = 0#32 then { u with phase := .encW0 } else
        { u with phase := .encP2, idx := u.idx - 1#32 })) ∧
    (s.phase = .encW0 → exec .fwd s = .next u → exec .encW0 s = .next { u with phase := .encW1 }) ∧
    (s.phase = .encW1 → exec .fwd s = .next u → exec .encW1 s = .next { u with code := 0#3, phase := .idle }) ∧
    (s.phase = .decU0 → exec .fwd s = .next u → exec .decU0 s = .next { u with phase := .decU1 }) ∧
    (s.phase = .decU1 → exec .fwd s = .next u → exec .decU1 s = .next { u with phase := .decP1, idx := 0#32 }) ∧
    (s.phase = .decP1 → exec .bwd s = .next u →
      exec .decP1 s = .next (if u.idx.toNat + 1 = u.len.toNat then { u with phase := .decP2 } else
        { u with phase := .decP1, idx := u.idx + 1#32 })) ∧
    (s.phase = .decP2 → exec .bwd s = .next u →
      exec .decP2 s = .next (if u.idx = 0#32 then { u with code := 0#3, phase := .idle } else
        { u with phase := .decP2, idx := u.idx - 1#32 }))

/-! ## The step kinds -/

/-- 30_encoding.md R81, code 0: IDLE changes nothing, and with no input left an idle machine stays as it is. -/
def Obligations.IdleStays : Prop :=
  ∀ s : State, exec .idle s = .next s ∧ (s.phase = .idle → s.host = [] → step s = .next s)

/-- 41_validator.md R101, R102, R105: VALIDATE on every input. The first failing check in the order key, counter,
data, length decides the status and ends the command, writing STATUS.CODE and PHASE only; otherwise ENCODE starts pass
1 at index 0 and DECODE the unwrap. -/
def Obligations.ValidateOutcome : Prop :=
  ∀ s : State, exec .validate s = .next (
    if kpBit s.cmdr = false then { s with code := 1#3, phase := .idle }
    else if ipBit s.cmdr = false then { s with code := 2#3, phase := .idle }
    else if dpBit s.cmdr = false then { s with code := 3#3, phase := .idle }
    else if s.len = 0#32 then { s with code := 4#3, phase := .idle }
    else if opBit s.cmdr = false then { s with phase := .encP1, idx := 0#32 }
    else { s with phase := .decU0 })

/-- 42_encoder.md R111: ENC_P1 at `x` inside the sequence. BLK[x] becomes `BLK[x] ^ b ^ IV` with `b` KLO at 0 and
BLK[x-1] elsewhere, IV steps up, every other word stays, and the position moves up, or to ENC_P2 at the same index
from LEN-1. -/
def Obligations.EncP1Step : Prop :=
  ∀ s : State, s.idx.toNat < s.len.toNat → s.len.toNat ≤ s.cfg.maxLen →
    ∃ t, exec .encP1 s = .next t ∧
      t.blk.read s.idx.toNat = s.blk.read s.idx.toNat ^^^
        (if s.idx = 0#32 then s.klo else s.blk.read (s.idx.toNat - 1)) ^^^ s.iv ∧
      (∀ a, a ≠ s.idx.toNat → t.blk.read a = s.blk.read a) ∧
      t = { s with
            blk := s.blk.write s.idx.toNat (t.blk.read s.idx.toNat)
            iv := s.iv + 1#32
            phase := if s.idx.toNat + 1 = s.len.toNat then .encP2 else .encP1
            idx := if s.idx.toNat + 1 = s.len.toNat then s.idx else s.idx + 1#32 }

/-- 42_encoder.md R113: ENC_P2 at `x` inside the sequence. BLK[x] becomes `BLK[x] ^ b ^ IV` with `b` KHI at LEN-1 and
BLK[x+1] elsewhere, IV still steps up, and the position moves down, or to ENC_W0 from 0. -/
def Obligations.EncP2Step : Prop :=
  ∀ s : State, s.idx.toNat < s.len.toNat → s.len.toNat ≤ s.cfg.maxLen →
    ∃ t, exec .encP2 s = .next t ∧
      t.blk.read s.idx.toNat = s.blk.read s.idx.toNat ^^^
        (if s.idx.toNat + 1 = s.len.toNat then s.khi else s.blk.read (s.idx.toNat + 1)) ^^^ s.iv ∧
      (∀ a, a ≠ s.idx.toNat → t.blk.read a = s.blk.read a) ∧
      t = { s with
            blk := s.blk.write s.idx.toNat (t.blk.read s.idx.toNat)
            iv := s.iv + 1#32
            phase := if s.idx = 0#32 then .encW0 else .encP2
            idx := if s.idx = 0#32 then s.idx else s.idx - 1#32 }

/-- 42_encoder.md R116: ENC_W0 folds the product into IV with T = 0, whatever T held, and leaves T = 1. -/
def Obligations.EncW0Step : Prop :=
  ∀ s : State, exec .encW0 s = .next { s with iv := s.iv ^^^ s.klo * s.khi, t := 1#32, phase := .encW1 }

/-- 42_encoder.md R117: ENC_W1 folds BLK[0] and T into IV, steps T, and ends the command with Success. With T = 1 it
writes `IV ^ BLK[0] ^ 1` and T = 2. BLK is not written. -/
def Obligations.EncW1Step : Prop :=
  ∀ s : State, 0 < s.cfg.maxLen →
    exec .encW1 s = .next
      { s with iv := s.iv ^^^ s.blk.read 0 ^^^ s.t, t := s.t + 1#32, code := 0#3, phase := .idle } ∧
    (s.t = 1#32 → exec .encW1 s = .next
      { s with iv := s.iv ^^^ s.blk.read 0 ^^^ 1#32, t := 2#32, code := 0#3, phase := .idle })

/-- 43_decoder.md R131: DEC_U0 folds BLK[0] into IV with T = 0, whatever T held, and leaves T = 1. BLK is not
written. -/
def Obligations.DecU0Step : Prop :=
  ∀ s : State, 0 < s.cfg.maxLen →
    exec .decU0 s = .next { s with iv := s.iv ^^^ s.blk.read 0, t := 1#32, phase := .decU1 }

/-- 43_decoder.md R132: DEC_U1 folds the product and T into IV, steps T, and starts pass 1 at index 0. With T = 1 it
writes `IV ^ PROD ^ 1` and T = 2. -/
def Obligations.DecU1Step : Prop :=
  ∀ s : State,
    exec .decU1 s = .next
      { s with iv := s.iv ^^^ s.klo * s.khi ^^^ s.t, t := s.t + 1#32, phase := .decP1, idx := 0#32 } ∧
    (s.t = 1#32 → exec .decU1 s = .next
      { s with iv := s.iv ^^^ s.klo * s.khi ^^^ 1#32, t := 2#32, phase := .decP1, idx := 0#32 })

/-- 43_decoder.md R134: DEC_P1 at `x` inside the sequence. IV steps down first; BLK[x] becomes `BLK[x] ^ b ^ IV` with
`b` KHI at LEN-1 and BLK[x+1] elsewhere; the position moves up, or to DEC_P2 at the same index from LEN-1. -/
def Obligations.DecP1Step : Prop :=
  ∀ s : State, s.idx.toNat < s.len.toNat → s.len.toNat ≤ s.cfg.maxLen →
    ∃ t, exec .decP1 s = .next t ∧
      t.blk.read s.idx.toNat = s.blk.read s.idx.toNat ^^^
        (if s.idx.toNat + 1 = s.len.toNat then s.khi else s.blk.read (s.idx.toNat + 1)) ^^^ (s.iv - 1#32) ∧
      (∀ a, a ≠ s.idx.toNat → t.blk.read a = s.blk.read a) ∧
      t = { s with
            blk := s.blk.write s.idx.toNat (t.blk.read s.idx.toNat)
            iv := s.iv - 1#32
            phase := if s.idx.toNat + 1 = s.len.toNat then .decP2 else .decP1
            idx := if s.idx.toNat + 1 = s.len.toNat then s.idx else s.idx + 1#32 }

/-- 43_decoder.md R136: DEC_P2 at `x` inside the sequence. IV steps down first; BLK[x] becomes `BLK[x] ^ b ^ IV` with
`b` KLO at 0 and BLK[x-1] elsewhere; the position moves down, and at 0 the command ends with Success. -/
def Obligations.DecP2Step : Prop :=
  ∀ s : State, s.idx.toNat < s.len.toNat → s.len.toNat ≤ s.cfg.maxLen →
    ∃ t, exec .decP2 s = .next t ∧
      t.blk.read s.idx.toNat = s.blk.read s.idx.toNat ^^^
        (if s.idx = 0#32 then s.klo else s.blk.read (s.idx.toNat - 1)) ^^^ (s.iv - 1#32) ∧
      (∀ a, a ≠ s.idx.toNat → t.blk.read a = s.blk.read a) ∧
      t = { s with
            blk := s.blk.write s.idx.toNat (t.blk.read s.idx.toNat)
            iv := s.iv - 1#32
            code := if s.idx = 0#32 then 0#3 else s.code
            phase := if s.idx = 0#32 then .idle else .decP2
            idx := if s.idx = 0#32 then s.idx else s.idx - 1#32 }

/-! ## The host's transactions -/

/-- 44_host_access.md R151: RD answers the register and changes no state of the block: KLO, KHI, IV and LEN in IDLE,
STATUS at any time. CMD cannot be read and numbers 6 and 7 are no registers. -/
def Obligations.RdAnswers : Prop :=
  (∀ s : State,
    exec (.rd .status) s = .next { s with replies := .status s.statusWord :: s.replies } ∧
    (s.phase = .idle →
      exec (.rd .klo) s = .next { s with replies := .word s.klo :: s.replies } ∧
      exec (.rd .khi) s = .next { s with replies := .word s.khi :: s.replies } ∧
      exec (.rd .iv) s = .next { s with replies := .word s.iv :: s.replies } ∧
      exec (.rd .len) s = .next { s with replies := .word s.len :: s.replies } ∧
      exec (.rd .cmd) s = .refused .readOfWriteOnly)) ∧
  ∀ data : Word,
    decode (.host 0b00#2 6#32 data) = .error (.reservedRegister 6#32) ∧
    decode (.host 0b00#2 7#32 data) = .error (.reservedRegister 7#32)

/-- 30_encoding.md R79: bits 2:0 of a STATUS read are CODE and bit 3 is BUSY. -/
def Obligations.StatusReadLayout : Prop :=
  ∀ s : State,
    s.statusWord.extractLsb' 0 3 = s.code ∧
    (s.statusWord.getLsbD 3 = true ↔ s.phase ≠ .idle)

/-- 44_host_access.md R152, R155: WR in IDLE stores any value in KLO, KHI, IV or LEN and changes nothing else; a WR to
CMD latches bits 3:0 in CMDR, starts VALIDATE and changes nothing else (for a LEN the store can hold); STATUS cannot
be written. -/
def Obligations.WrStores : Prop :=
  (∀ (s : State) (v : Word), s.phase = .idle →
    exec (.wr .klo v) s = .next { s with klo := v } ∧
    exec (.wr .khi v) s = .next { s with khi := v } ∧
    exec (.wr .iv v) s = .next { s with iv := v } ∧
    exec (.wr .len v) s = .next { s with len := v } ∧
    (s.len.toNat ≤ s.cfg.maxLen →
      exec (.wr .cmd v) s = .next { s with cmdr := v.extractLsb' 0 4, phase := .validate }) ∧
    exec (.wr .status v) s = .refused .writeOfReadOnly) ∧
  ∀ data : Word,
    decode (.host 0b01#2 6#32 data) = .error (.reservedRegister 6#32) ∧
    decode (.host 0b01#2 7#32 data) = .error (.reservedRegister 7#32)

/-- 44_host_access.md R153: RDB in IDLE answers the word at any index below MAXLEN, whatever LEN is, and changes no
state of the block. -/
def Obligations.RdbAnswers : Prop :=
  ∀ (s : State) (n : Word), s.phase = .idle → n.toNat < s.cfg.maxLen →
    exec (.rdb n) s = .next { s with replies := .word (s.blk.read n.toNat) :: s.replies }

/-- 44_host_access.md R154: WRB in IDLE stores a word at any index below MAXLEN, whatever LEN is: that word reads as
the value, every other word and every register stays. -/
def Obligations.WrbStores : Prop :=
  ∀ (s : State) (n v : Word), s.phase = .idle → n.toNat < s.cfg.maxLen →
    ∃ t, exec (.wrb n v) s = .next t ∧ t.blk.read n.toNat = v ∧
      (∀ a, a ≠ n.toNat → t.blk.read a = s.blk.read a) ∧ t = { s with blk := t.blk }

/-! ## Where the model refuses -/

/-- 93_implementation_defined.md U1: while BUSY every transaction but RD STATUS, and every command, is refused; RD
STATUS answers with BUSY = 1. -/
def Obligations.BusyHostRefused : Prop :=
  ∀ s : State, s.phase ≠ .idle →
    (∀ r, r ≠ .status → exec (.rd r) s = .refused .hostAccessWhileBusy) ∧
    (∀ r v, exec (.wr r v) s = .refused .hostAccessWhileBusy) ∧
    (∀ n, exec (.rdb n) s = .refused .hostAccessWhileBusy) ∧
    (∀ n v, exec (.wrb n v) s = .refused .hostAccessWhileBusy) ∧
    (∀ kp ip dp, exec (.encode kp ip dp) s = .refused .hostAccessWhileBusy) ∧
    (∀ kp ip dp, exec (.decode kp ip dp) s = .refused .hostAccessWhileBusy) ∧
    exec (.rd .status) s = .next { s with replies := .status (1#1 ++ s.code) :: s.replies }

/-- 93_implementation_defined.md U4: a command with LEN above MAXLEN, and a host index at or above MAXLEN, are
refused. -/
def Obligations.BeyondStoreRefused : Prop :=
  ∀ s : State, s.phase = .idle →
    (s.cfg.maxLen < s.len.toNat →
      (∀ v, exec (.wr .cmd v) s = .refused .lengthAboveStore) ∧
      (∀ kp ip dp, exec (.encode kp ip dp) s = .refused .lengthAboveStore) ∧
      (∀ kp ip dp, exec (.decode kp ip dp) s = .refused .lengthAboveStore)) ∧
    (∀ n : Word, s.cfg.maxLen ≤ n.toNat →
      exec (.rdb n) s = .refused (.indexAboveStore n) ∧
      ∀ v, exec (.wrb n v) s = .refused (.indexAboveStore n))

/-! ## Whole commands -/

/-- 41_validator.md R103, R105; 60_exceptions.md R171 to R173: a command with a missing operand or a zero length ends
with the first failing check's status; CODE and the latched word change, nothing else. -/
def Obligations.RejectedCommandChangesStatusOnly : Prop :=
  ∀ (s : State) (kp ip dp : Bool), s.phase = .idle → s.len.toNat ≤ s.cfg.maxLen →
    (kp && ip && dp) = false ∨ s.len = 0#32 →
    exec (.encode kp ip dp) s = .next
      { s with
        code := if kp = false then 1#3 else if ip = false then 2#3 else if dp = false then 3#3 else 4#3
        cmdr := commandWord false kp ip dp } ∧
    exec (.decode kp ip dp) s = .next
      { s with
        code := if kp = false then 1#3 else if ip = false then 2#3 else if dp = false then 3#3 else 4#3
        cmdr := commandWord true kp ip dp }

/-- 42_encoder.md R110 with the closed forms R112, R114, R118: ENCODE with all operands present over N = LEN blocks,
1 <= N <= MAXLEN. -/
def Obligations.EncodeClosedForm : Prop :=
  ∀ s : State, s.phase = .idle → s.len ≠ 0#32 → s.len.toNat ≤ s.cfg.maxLen →
    ∃ t, exec (.encode true true true) s = .next t ∧
      t = { s with blk := t.blk, iv := t.iv, code := 0#3, t := 2#32, idx := 0#32, cmdr := 0xE#4 } ∧
      t.blk.read (s.len.toNat - 1) = encodeMiddle s.klo s.iv s.blk.read (s.len.toNat - 1) ^^^ s.khi ^^^
        (s.iv + s.len) ∧
      (∀ j, j + 1 < s.len.toNat → t.blk.read j = encodeMiddle s.klo s.iv s.blk.read j ^^^ t.blk.read (j + 1) ^^^
        (s.iv + BitVec.ofNat 32 (2 * s.len.toNat - 1 - j))) ∧
      (∀ a, s.len.toNat ≤ a → t.blk.read a = s.blk.read a) ∧
      t.iv = (s.iv + BitVec.ofNat 32 (2 * s.len.toNat)) ^^^ (s.klo * s.khi) ^^^ t.blk.read 0 ^^^ 1#32

/-- 43_decoder.md R130 with the closed forms R133, R135, R137, R138: DECODE with all operands present over N = LEN
blocks, 1 <= N <= MAXLEN, on any contents. -/
def Obligations.DecodeClosedForm : Prop :=
  ∀ s : State, s.phase = .idle → s.len ≠ 0#32 → s.len.toNat ≤ s.cfg.maxLen →
    ∃ t, exec (.decode true true true) s = .next t ∧
      t = { s with blk := t.blk, iv := t.iv, code := 0#3, t := 2#32, idx := 0#32, cmdr := 0xF#4 } ∧
      (∀ k, k < s.len.toNat → t.blk.read k =
        decodeFinal s.klo (unwrapped s.klo s.khi s.iv (s.blk.read 0)) s.len.toNat
          (decodeMiddle s.khi (unwrapped s.klo s.khi s.iv (s.blk.read 0)) s.len.toNat s.blk.read) k) ∧
      (∀ a, s.len.toNat ≤ a → t.blk.read a = s.blk.read a) ∧
      t.iv = unwrapped s.klo s.khi s.iv (s.blk.read 0) - BitVec.ofNat 32 (2 * s.len.toNat)

/-- 43_decoder.md R140: ENCODE and then DECODE, with nothing changed in between, restores every block and the counter,
and both end with Success. -/
def Obligations.EncodeThenDecodeRestores : Prop :=
  ∀ s : State, s.phase = .idle → s.len ≠ 0#32 → s.len.toNat ≤ s.cfg.maxLen →
    ∃ t u, exec (.encode true true true) s = .next t ∧ t.code = Status.success.code ∧
      exec (.decode true true true) t = .next u ∧ u.code = Status.success.code ∧
      u.iv = s.iv ∧ ∀ a, u.blk.read a = s.blk.read a

/-- 43_decoder.md R141: DECODE on any contents and then ENCODE restores every block and the counter. -/
def Obligations.DecodeThenEncodeRestores : Prop :=
  ∀ s : State, s.phase = .idle → s.len ≠ 0#32 → s.len.toNat ≤ s.cfg.maxLen →
    ∃ t u, exec (.decode true true true) s = .next t ∧ exec (.encode true true true) t = .next u ∧
      u.iv = s.iv ∧ ∀ a, u.blk.read a = s.blk.read a

/-- 42_encoder.md R121: ENCODE of one block. -/
def Obligations.EncodeSingleBlock : Prop :=
  ∀ s : State, s.phase = .idle → s.len = 1#32 → 0 < s.cfg.maxLen →
    ∃ t, exec (.encode true true true) s = .next t ∧
      t.blk.read 0 = s.blk.read 0 ^^^ s.klo ^^^ s.iv ^^^ s.khi ^^^ (s.iv + 1#32) ∧
      t.iv = (s.iv + 2#32) ^^^ (s.klo * s.khi) ^^^ t.blk.read 0 ^^^ 1#32

/-- 43_decoder.md R143: DECODE of one block. -/
def Obligations.DecodeSingleBlock : Prop :=
  ∀ s : State, s.phase = .idle → s.len = 1#32 → 0 < s.cfg.maxLen →
    ∃ t, exec (.decode true true true) s = .next t ∧
      t.blk.read 0 = s.blk.read 0 ^^^ s.khi ^^^ (unwrapped s.klo s.khi s.iv (s.blk.read 0) - 1#32) ^^^ s.klo ^^^
        (unwrapped s.klo s.khi s.iv (s.blk.read 0) - 2#32) ∧
      t.iv = unwrapped s.klo s.khi s.iv (s.blk.read 0) - 2#32

/-- 42_encoder.md R122: (a) with LEN = 1, KLO = 0, KHI = 1 and IV = 0 the ciphertext is the plaintext, whatever it is;
(b) the counter comes back unchanged exactly when `F[0] = C0 ^ (C0 + 2N) ^ PROD ^ 1`. -/
def Obligations.EncodePromisesNoDifference : Prop :=
  (∀ s : State, s.phase = .idle → s.len = 1#32 → 0 < s.cfg.maxLen →
    s.klo = 0#32 → s.khi = 1#32 → s.iv = 0#32 →
    ∃ t, exec (.encode true true true) s = .next t ∧ t.blk.read 0 = s.blk.read 0) ∧
  ∀ s : State, s.phase = .idle → s.len ≠ 0#32 → s.len.toNat ≤ s.cfg.maxLen →
    ∃ t, exec (.encode true true true) s = .next t ∧
      (t.iv = s.iv ↔ t.blk.read 0 =
        s.iv ^^^ (s.iv + BitVec.ofNat 32 (2 * s.len.toNat)) ^^^ (s.klo * s.khi) ^^^ 1#32)

/-- 10_state.md R38: a command's result depends only on the command word and on KLO, KHI, IV, LEN and
BLK[0 .. LEN-1] at issue: on two states that agree there it gives the same status, counter and blocks, whatever else
they hold. -/
def Obligations.EqualInputsEqualResults : Prop :=
  ∀ (s₁ s₂ : State) (kp ip dp : Bool) (i : Instr), i = .encode kp ip dp ∨ i = .decode kp ip dp →
    s₁.phase = .idle → s₂.phase = .idle → s₁.len.toNat ≤ s₁.cfg.maxLen → s₂.len.toNat ≤ s₂.cfg.maxLen →
    s₁.klo = s₂.klo → s₁.khi = s₂.khi → s₁.iv = s₂.iv → s₁.len = s₂.len →
    (∀ a, a < s₁.len.toNat → s₁.blk.read a = s₂.blk.read a) →
    ∃ t₁ t₂, exec i s₁ = .next t₁ ∧ exec i s₂ = .next t₂ ∧ t₁.code = t₂.code ∧ t₁.iv = t₂.iv ∧
      t₁.klo = t₂.klo ∧ t₁.khi = t₂.khi ∧ t₁.len = t₂.len ∧
      ∀ a, a < s₁.len.toNat → t₁.blk.read a = t₂.blk.read a

/-! ## The sequencer against the whole command -/

/-- 44_host_access.md R157: the steps from an ENCODE word's CMD write until PHASE is IDLE again end in the state of
the whole-command function, for all eight words; the step counts are R156's. R157 asks for KLO, KHI, IV, LEN, BLK
and STATUS.CODE; that the two views agree on T, IDX and CMDR too is the model's choice (assumption 10). -/
def Obligations.SequencerEqualsWholeEncode : Prop :=
  ∀ (s : State) (kp ip dp : Bool), s.phase = .idle → s.host = [] → s.len.toNat ≤ s.cfg.maxLen →
    stepsFrom (1 + commandSteps (commandWord false kp ip dp) s.len)
      { s with host := [.transaction 0b01#2 4#32 ((commandWord false kp ip dp).setWidth 32)] } =
    exec (.encode kp ip dp) s

/-- 44_host_access.md R157: the same for the eight DECODE words, the agreement on T, IDX and CMDR again the model's
choice (assumption 10). -/
def Obligations.SequencerEqualsWholeDecode : Prop :=
  ∀ (s : State) (kp ip dp : Bool), s.phase = .idle → s.host = [] → s.len.toNat ≤ s.cfg.maxLen →
    stepsFrom (1 + commandSteps (commandWord true kp ip dp) s.len)
      { s with host := [.transaction 0b01#2 4#32 ((commandWord true kp ip dp).setWidth 32)] } =
    exec (.decode kp ip dp) s

/-- 42_encoder.md R115, R120: from ENC_P1 at 0 the sequencer goes up to LEN-1, then through ENC_P2 from LEN-1 down to
0, then to ENC_W0, and the k-th pass step finds the counter `C0 + k`. -/
def Obligations.EncodePassPath : Prop :=
  ∀ (s : State) (k : Nat), s.host = [] → s.phase = .encP1 → s.idx = 0#32 → s.len ≠ 0#32 →
    s.len.toNat ≤ s.cfg.maxLen → k ≤ 2 * s.len.toNat →
    ∃ t, stepsFrom k s = .next t ∧ t.iv = s.iv + BitVec.ofNat 32 k ∧ t.t = s.t ∧ t.code = s.code ∧
      (k < s.len.toNat → t.phase = .encP1 ∧ t.idx.toNat = k) ∧
      (s.len.toNat ≤ k → k < 2 * s.len.toNat → t.phase = .encP2 ∧ t.idx.toNat = 2 * s.len.toNat - 1 - k) ∧
      (k = 2 * s.len.toNat → t.phase = .encW0)

/-- 43_decoder.md R135, R137, R139: from DEC_P1 at 0 the sequencer goes up to LEN-1, then through DEC_P2 from LEN-1
down to 0, then to IDLE with Success, and after k pass steps the counter is `C2 - k`. -/
def Obligations.DecodePassPath : Prop :=
  ∀ (s : State) (k : Nat), s.host = [] → s.phase = .decP1 → s.idx = 0#32 → s.len ≠ 0#32 →
    s.len.toNat ≤ s.cfg.maxLen → k ≤ 2 * s.len.toNat →
    ∃ t, stepsFrom k s = .next t ∧ t.iv = s.iv - BitVec.ofNat 32 k ∧ t.t = s.t ∧
      (k < s.len.toNat → t.phase = .decP1 ∧ t.idx.toNat = k ∧ t.code = s.code) ∧
      (s.len.toNat ≤ k → k < 2 * s.len.toNat →
        t.phase = .decP2 ∧ t.idx.toNat = 2 * s.len.toNat - 1 - k ∧ t.code = s.code) ∧
      (k = 2 * s.len.toNat → t.phase = .idle ∧ t.code = Status.success.code)

/-- 42_encoder.md R118, R119 and 43_decoder.md R133: the two wrap steps fold the product and BLK[0] into IV with T
values 0 and 1 and end the command; the two unwrap steps fold in the same two values and start pass 1; T's old value
does not matter. -/
def Obligations.WrapAndUnwrapFoldTheSame : Prop :=
  ∀ s : State, s.host = [] → 0 < s.cfg.maxLen →
    (s.phase = .encW0 → stepsFrom 2 s = .next
      { s with
        iv := s.iv ^^^ (s.klo * s.khi) ^^^ s.blk.read 0 ^^^ 1#32
        t := 2#32, code := 0#3, phase := .idle }) ∧
    (s.phase = .decU0 → stepsFrom 2 s = .next
      { s with
        iv := s.iv ^^^ s.blk.read 0 ^^^ (s.klo * s.khi) ^^^ 1#32
        t := 2#32, phase := .decP1, idx := 0#32 })

/-- 44_host_access.md R156; 41_validator.md R106: from every state that meets the invariant with a command in
progress, the core alone reaches IDLE in at most `2*LEN + 3` steps; past VALIDATE it ends with Success. -/
def Obligations.EveryCommandCompletes : Prop :=
  ∀ s : State, s.Inv → s.host = [] → s.phase ≠ .idle →
    ∃ k t, 1 ≤ k ∧ k ≤ 2 * s.len.toNat + 3 ∧ stepsFrom k s = .next t ∧ t.phase = .idle ∧
      (s.phase ≠ .validate → t.code = Status.success.code)

/-! ## The invariant -/

/-- Every step keeps the invariant: the store's canonical form and bounds, `0 <= IDX <= LEN-1` in the pass phases
(10_state.md R32), all operands present and the phase that of the latched command past VALIDATE, and T = 1 where the
second wrap or unwrap call begins. -/
def Obligations.StepKeepsInvariant : Prop :=
  ∀ s t : State, s.Inv → step s = .next t → t.Inv

/-- The invariant holds at reset. -/
def Obligations.ResetMeetsInvariant : Prop :=
  State.reset.Inv

/-- 60_exceptions.md R176: no step of a state that meets the invariant faults: every index the core forms is inside
the store. -/
def Obligations.InvariantExcludesFaults : Prop :=
  ∀ (s : State) (f : Fault), s.Inv → step s ≠ .fault f

/-! ## The machine as a whole -/

/-- 10_state.md R37: what the steps of the core may write. KLO, KHI, LEN and CMDR never; IV, T and CODE only in the
step kinds listed; in BLK only the word at IDX. R37 speaks of steps only: the clauses on FWD and BWD by themselves (IV,
T and BLK as wired, the position kept) are the model's choice (assumption 12). -/
def Obligations.CoreWritesOnlyItsOwn : Prop :=
  ∀ (i : Instr) (s t : State), isCoreInstr i = true → exec i s = .next t →
    t.klo = s.klo ∧ t.khi = s.khi ∧ t.len = s.len ∧ t.cmdr = s.cmdr ∧
    t.cfg = s.cfg ∧ t.host = s.host ∧ t.replies = s.replies ∧
    (i = .idle ∨ i = .validate → t.iv = s.iv) ∧
    (i ∉ [.encW0, .encW1, .decU0, .decU1, .fwd, .bwd] → t.t = s.t) ∧
    (i ∉ [.encP1, .encP2, .decP1, .decP2, .fwd, .bwd] → t.blk = s.blk) ∧
    (i ∉ [.validate, .encW1, .decP2] → t.code = s.code) ∧
    (i = .decP2 → s.idx ≠ 0#32 → t.code = s.code) ∧
    (i = .validate → firstFailure (kpBit s.cmdr) (ipBit s.cmdr) (dpBit s.cmdr) s.len = none → t.code = s.code) ∧
    (i = .fwd ∨ i = .bwd → t.phase = s.phase ∧ t.idx = s.idx) ∧
    ∀ a, a ≠ s.idx.toNat → t.blk.read a = s.blk.read a

/-- 10_state.md R26, 30_encoding.md R78: a step other than a reset event leaves STATUS.CODE as it was, or ends a command
(one in progress, or one taken whole), writes one of the five codes 0 to 4 and leaves the machine idle. So while BUSY
the previous command's code stands, and no transaction writes CODE. A command taken whole in one step is the model's
choice (assumption 10). -/
def Obligations.CodeChangesOnlyAtCompletion : Prop :=
  ∀ s t : State, (∀ rest, s.host ≠ .reset :: rest) → step s = .next t →
    t.code = s.code ∨
      t.code.toNat ≤ 4 ∧ t.phase = .idle ∧ (s.phase ≠ .idle ∨ ∃ w rest, s.host = .command w :: rest)

/-- 20_memory.md R55, 93_implementation_defined.md U7: no step of the core, and no whole command, changes a word at or
above LEN. -/
def Obligations.WordsAboveLengthUntouched : Prop :=
  (∀ s t : State, s.Inv → s.host = [] → step s = .next t →
    ∀ a, s.len.toNat ≤ a → t.blk.read a = s.blk.read a) ∧
  ∀ (s t : State) (kp ip dp : Bool),
    exec (.encode kp ip dp) s = .next t ∨ exec (.decode kp ip dp) s = .next t →
    ∀ a, s.len.toNat ≤ a → t.blk.read a = s.blk.read a

/-- A step runs the decoded instruction (assumption 2): on the core's turn the step of the current phase, on the
host's the transaction or command at the head of the input, taken off it; WAIT runs the core while BUSY and is RD
STATUS once idle; a form that is no instruction is refused by name. -/
def Obligations.StepRunsDecodedInstruction : Prop :=
  ∀ s : State,
    decode s.coreForm = .ok s.phase.stepInstr ∧
    (s.host = [] → step s = exec s.phase.stepInstr s) ∧
    ∀ rest,
      (s.host = .coreTurn :: rest → step s = exec s.phase.stepInstr { s with host := rest }) ∧
      (∀ hdr addr data i, s.host = .transaction hdr addr data :: rest → decode (.host hdr addr data) = .ok i →
        step s = exec i { s with host := rest }) ∧
      (∀ hdr addr data err, s.host = .transaction hdr addr data :: rest →
        decode (.host hdr addr data) = .error err → step s = .refused (.undecodable err)) ∧
      (∀ w, s.host = .command w :: rest → step s = exec (decodeCommand w) { s with host := rest }) ∧
      (s.host = .wait :: rest → s.phase ≠ .idle → step s = exec s.phase.stepInstr s) ∧
      (s.host = .wait :: rest → s.phase = .idle → step s = exec (.rd .status) { s with host := rest })

/-- 70_reset_and_hazards.md R190: a reset event, at any time, puts the sequencer in IDLE, hence BUSY = 0. What is the
model's own stays but for the event itself, and the store left has the canonical form. Of the values the spec leaves
unspecified nothing is said (they are free, assumption 6). -/
def Obligations.ResetEventLeavesIdle : Prop :=
  ∀ (s : State) (rest : List HostEvent), s.host = .reset :: rest →
    ∃ t, step s = .next t ∧ t.phase = .idle ∧ t.busy = false ∧ t.blk.wf = true ∧ t.cfg = s.cfg ∧ t.host = rest ∧
      t.replies = s.replies

/-- 10_state.md R36: right after reset PHASE is IDLE and STATUS.BUSY is 0, the two values the spec gives. -/
def Obligations.ResetIsIdle : Prop :=
  State.reset.phase = .idle ∧ State.reset.busy = false

/-! ## Host programs -/

/-- 44_host_access.md R159, R160: the transactions of encode() or decode(), up to its WAIT, bring an idle machine to
the state the whole command leaves on the operands the call supplies, and the last reply is STATUS with BUSY = 0 and
the command's code. WAIT as one event, and a command taken whole, are the model's choice (assumption 10). -/
def Obligations.CallRunsItsCommand : Prop :=
  ∀ (op : Bool) (a : CallArgs) (s : State), s.phase = .idle → s.host = [] → a.length.toNat ≤ s.cfg.maxLen →
    ∃ k u, exec (a.command op) (a.load s) = .next u ∧
      stepsFrom k { s with host := callEvents op a } =
        .next { u with replies := .status (0#1 ++ u.code) :: u.replies }

/-- 44_host_access.md R159: reading back returns IV and then the blocks 0 .. length-1, and changes nothing else. -/
def Obligations.ReadBackReturnsResults : Prop :=
  ∀ (length : Word) (s : State), s.phase = .idle → s.host = [] → length.toNat ≤ s.cfg.maxLen →
    stepsFrom (length.toNat + 1) { s with host := hostProgram (readBackLines length) } =
      .next { s with
        replies := ((List.range length.toNat).map fun n => Reply.word (s.blk.read n)).reverse ++
          (.word s.iv :: s.replies) }

/-- 44_host_access.md R162: of a 64-bit key KLO gets `raw mod 2^32` and KHI `raw div 2^32`, so that
`raw = high * 2^32 + low`. -/
def Obligations.KeySplitKeepsValue : Prop :=
  ∀ raw : BitVec 64,
    (splitKey raw).1.toNat = raw.toNat % 4294967296 ∧ (splitKey raw).2.toNat = raw.toNat / 4294967296 ∧
    raw.toNat = (splitKey raw).2.toNat * 4294967296 + (splitKey raw).1.toNat

/-- 44_host_access.md R159, R160: what encode() and decode() hand back. The status returned is the first failing
check's, or Success. On any other status than Success the caller's variables keep their values and nothing is read back; on
Success `iv` is the counter the command left and `blocks[0 .. length-1]` the words it left, the array's further values
kept. The block is left as the whole command leaves it, the replies apart. The call as a function is the model's choice
(assumption 17). -/
def Obligations.CallReturnsStatusAndResults : Prop :=
  ∀ (op : Bool) (a : CallArgs) (s : State), s.phase = .idle → s.host = [] → a.length.toNat ≤ s.cfg.maxLen →
    ∃ u, exec (a.command op) (a.load s) = .next u ∧
      (if op then decodeCall a s else encodeCall a s) =
        match firstFailure a.key.isSome a.iv.isSome a.blocks.isSome a.length with
        | some x => .next ⟨some x, a, { u with replies := .status (0#1 ++ x.code) :: u.replies }⟩
        | none => .next
          ⟨some .success,
            { a with
              iv := some u.iv
              blocks := a.blocks.map fun bs =>
                (List.range a.length.toNat).map u.blk.read ++ bs.drop a.length.toNat },
            { u with
              replies := ((List.range a.length.toNat).map fun n => Reply.word (u.blk.read n)).reverse ++
                (.word u.iv :: .status 0#4 :: u.replies) }⟩

/-- 44_host_access.md R160, 43_decoder.md R140: decode() with the key and the length of an encode() call and the `iv`
and `blocks` that call left gives the caller's `iv` and `blocks` back, both calls returning Success. The call as a function
is the model's choice (assumption 17). -/
def Obligations.EncodeCallThenDecodeCall : Prop :=
  ∀ (key : Word × Word) (v : Word) (bs : List Word) (length : Word) (s : State),
    s.phase = .idle → s.host = [] → length ≠ 0#32 → length.toNat ≤ s.cfg.maxLen → length.toNat ≤ bs.length →
    ∃ r q, encodeCall ⟨some key, some v, some bs, length⟩ s = .next r ∧ r.status = some .success ∧
      decodeCall r.args r.block = .next q ∧ q.status = some .success ∧
      q.args = ⟨some key, some v, some bs, length⟩

/-! ## BWD where the spec has no BWD step -/

/-- BWD by itself on the wirings of the six step kinds that combine forward (30_encoding.md R81), which the spec never
runs: the model's choice (assumption 12). The function is R92's: the counter steps down first. -/
def Obligations.BwdOnOtherWirings : Prop :=
  (∀ s : State, s.idx.toNat < s.len.toNat → s.len.toNat ≤ s.cfg.maxLen →
    (s.phase = .encP1 → exec .bwd s = .next
      { s with
        blk := s.blk.write s.idx.toNat
          (s.blk.read s.idx.toNat ^^^ lowerOf s.klo s.idx.toNat s.blk ^^^ (s.iv - 1#32))
        iv := s.iv - 1#32 }) ∧
    (s.phase = .encP2 → exec .bwd s = .next
      { s with
        blk := s.blk.write s.idx.toNat
          (s.blk.read s.idx.toNat ^^^ upperOf s.khi s.len.toNat s.idx.toNat s.blk ^^^ (s.iv - 1#32))
        iv := s.iv - 1#32 })) ∧
  ∀ s : State, 0 < s.cfg.maxLen →
    (s.phase = .encW0 → exec .bwd s = .next
      { s with iv := s.iv ^^^ s.klo * s.khi ^^^ 0xFFFFFFFF#32, t := 0xFFFFFFFF#32 }) ∧
    (s.phase = .encW1 → exec .bwd s = .next
      { s with iv := s.iv ^^^ s.blk.read 0 ^^^ (s.t - 1#32), t := s.t - 1#32 }) ∧
    (s.phase = .decU0 → exec .bwd s = .next
      { s with iv := s.iv ^^^ s.blk.read 0 ^^^ 0xFFFFFFFF#32, t := 0xFFFFFFFF#32 }) ∧
    (s.phase = .decU1 → exec .bwd s = .next
      { s with iv := s.iv ^^^ s.klo * s.khi ^^^ (s.t - 1#32), t := s.t - 1#32 })
end

