-- ==== Sys2Proof/Laws/Memory.lean ====
section
/-! SUPPORT. The laws of the block store: a read after a write, and that every operation keeps the canonical form. -/

namespace Sys2Proof.Machine

@[simp] theorem Memory.write_resets (m : Memory) (i : Nat) (v : Word) : (m.write i v).resets = m.resets := by
  unfold Memory.write; split <;> rfl

@[simp] theorem Memory.background_write (m : Memory) (i : Nat) (v : Word) (k : Nat) :
    (m.write i v).background k = m.background k := by
  simp [Memory.background]

/-! ## Lookup after a change of the cells -/

theorem lookupCell_put_same (i : Nat) (v : Word) (cs : List (Nat × Word)) :
    lookupCell i (putCell i v cs) = some v := by
  induction cs with
  | nil => simp [putCell, lookupCell]
  | cons c rest ih =>
    obtain ⟨j, w⟩ := c
    by_cases hlt : i < j
    · simp [putCell, hlt, lookupCell]
    · by_cases heq : i = j
      · simp [putCell, heq, lookupCell]
      · simp [putCell, hlt, heq, lookupCell, Ne.symm heq, ih]

theorem lookupCell_put_other {i k : Nat} (h : k ≠ i) (v : Word) (cs : List (Nat × Word)) :
    lookupCell k (putCell i v cs) = lookupCell k cs := by
  induction cs with
  | nil => simp [putCell, lookupCell, h.symm]
  | cons c rest ih =>
    obtain ⟨j, w⟩ := c
    by_cases hlt : i < j
    · simp [putCell, hlt, lookupCell, h.symm]
    · by_cases heq : i = j
      · subst heq; simp [putCell, lookupCell, h.symm]
      · simp [putCell, hlt, heq, lookupCell, ih]

theorem lookupCell_erase_same (i : Nat) (cs : List (Nat × Word)) : lookupCell i (eraseCell i cs) = none := by
  induction cs with
  | nil => rfl
  | cons c rest ih =>
    by_cases h : c.1 = i
    · simp [eraseCell, h, ih]
    · simp [eraseCell, h, lookupCell, ih]

theorem lookupCell_erase_other {i k : Nat} (h : k ≠ i) (cs : List (Nat × Word)) :
    lookupCell k (eraseCell i cs) = lookupCell k cs := by
  induction cs with
  | nil => rfl
  | cons c rest ih =>
    by_cases hc : c.1 = i
    · simp [eraseCell, hc, lookupCell, h.symm, ih]
    · simp [eraseCell, hc, lookupCell, ih]

/-! ## Read after write -/

@[simp] theorem Memory.read_write_same (m : Memory) (i : Nat) (v : Word) : (m.write i v).read i = v := by
  by_cases h : v = m.background i
  · simp only [Memory.read, Memory.background_write]
    simp [Memory.write, ← h, lookupCell_erase_same]
  · simp [Memory.read, Memory.write, h, lookupCell_put_same]

theorem Memory.read_write_other (m : Memory) {i k : Nat} (h : k ≠ i) (v : Word) :
    (m.write i v).read k = m.read k := by
  simp only [Memory.read, Memory.background_write]
  by_cases hv : v = m.background i
  · simp [Memory.write, hv, lookupCell_erase_other h]
  · simp [Memory.write, hv, lookupCell_put_other h]

theorem Memory.read_write (m : Memory) (i k : Nat) (v : Word) :
    (m.write i v).read k = if k = i then v else m.read k := by
  by_cases h : k = i
  · subst h; simp
  · simp [h, m.read_write_other h]

/-! ## The canonical form -/

theorem cellsRising_mono {lo lo' : Nat} (h : lo' ≤ lo) {cs : List (Nat × Word)} (hr : cellsRising lo cs = true) :
    cellsRising lo' cs = true := by
  cases cs with
  | nil => rfl
  | cons c rest =>
    simp only [cellsRising, Bool.and_eq_true, decide_eq_true_eq] at hr ⊢
    exact ⟨by omega, hr.2⟩

theorem cellsRising_put {lo i : Nat} (hi : lo ≤ i) (v : Word) {cs : List (Nat × Word)}
    (hr : cellsRising lo cs = true) : cellsRising lo (putCell i v cs) = true := by
  induction cs generalizing lo with
  | nil => simp [putCell, cellsRising, hi]
  | cons c rest ih =>
    obtain ⟨j, w⟩ := c
    simp only [cellsRising, Bool.and_eq_true, decide_eq_true_eq] at hr
    by_cases hlt : i < j
    · simp only [putCell, hlt, if_true, cellsRising, Bool.and_eq_true, decide_eq_true_eq]
      exact ⟨hi, by omega, hr.2⟩
    · by_cases heq : i = j
      · subst heq; simp [putCell, cellsRising, hi, hr.2]
      · simp only [putCell, hlt, heq, if_false, cellsRising, Bool.and_eq_true, decide_eq_true_eq]
        exact ⟨hr.1, ih (by omega) hr.2⟩

theorem cellsRising_erase {lo : Nat} (i : Nat) {cs : List (Nat × Word)} (hr : cellsRising lo cs = true) :
    cellsRising lo (eraseCell i cs) = true := by
  induction cs generalizing lo with
  | nil => rfl
  | cons c rest ih =>
    obtain ⟨j, w⟩ := c
    simp only [cellsRising, Bool.and_eq_true, decide_eq_true_eq] at hr
    by_cases h : j = i
    · simp only [eraseCell, h, if_true]
      exact cellsRising_mono (by omega) (ih hr.2)
    · simp only [eraseCell, h, if_false, cellsRising, Bool.and_eq_true, decide_eq_true_eq]
      exact ⟨hr.1, ih hr.2⟩

theorem mem_putCell {i : Nat} {v : Word} {cs : List (Nat × Word)} {c : Nat × Word} (h : c ∈ putCell i v cs) :
    c = (i, v) ∨ c ∈ cs := by
  induction cs with
  | nil => simpa [putCell] using h
  | cons d rest ih =>
    obtain ⟨j, w⟩ := d
    by_cases hlt : i < j
    · simpa [putCell, hlt] using h
    · by_cases heq : i = j
      · subst heq
        simp only [putCell, lt_irrefl, if_false, if_true, List.mem_cons] at h ⊢
        tauto
      · simp only [putCell, hlt, heq, if_false, List.mem_cons] at h ⊢
        rcases h with h | h
        · exact .inr (.inl h)
        · exact (ih h).imp_right .inr

theorem mem_eraseCell {i : Nat} {cs : List (Nat × Word)} {c : Nat × Word} (h : c ∈ eraseCell i cs) : c ∈ cs := by
  induction cs with
  | nil => simp [eraseCell] at h
  | cons d rest ih =>
    by_cases hd : d.1 = i
    · simp only [eraseCell, hd, if_true] at h
      exact List.mem_cons_of_mem _ (ih h)
    · simp only [eraseCell, hd, if_false, List.mem_cons] at h ⊢
      exact h.imp_right ih

/-- What a write can list: the word written, where it differs from the background, or what was listed. -/
theorem Memory.mem_write {m : Memory} {i : Nat} {v : Word} {c : Nat × Word} (h : c ∈ (m.write i v).cells) :
    (c = (i, v) ∧ v ≠ m.background i) ∨ c ∈ m.cells := by
  by_cases hv : v = m.background i
  · rw [Memory.write, if_pos hv] at h
    exact .inr (mem_eraseCell h)
  · rw [Memory.write, if_neg hv] at h
    exact (mem_putCell h).imp_left fun e => ⟨e, hv⟩

/-- Every write keeps the canonical form. -/
theorem Memory.write_wf {m : Memory} (h : m.wf = true) (i : Nat) (v : Word) : (m.write i v).wf = true := by
  simp only [Memory.wf, Bool.and_eq_true, List.all_eq_true, decide_eq_true_eq, Memory.background_write] at h ⊢
  refine ⟨?_, fun c hc => ?_⟩
  · by_cases hv : v = m.background i
    · rw [Memory.write, if_pos hv]; exact cellsRising_erase i h.1
    · rw [Memory.write, if_neg hv]; exact cellsRising_put (Nat.zero_le i) v h.1
  · rcases Memory.mem_write hc with ⟨rfl, hne⟩ | hc
    · exact hne
    · exact h.2 c hc

/-- A write below the bound keeps every listed index below it. -/
theorem Memory.write_below {m : Memory} {bound : Nat} (h : m.below bound = true) {i : Nat} (hi : i < bound)
    (v : Word) : (m.write i v).below bound = true := by
  simp only [Memory.below, List.all_eq_true, decide_eq_true_eq] at h ⊢
  intro c hc
  rcases Memory.mem_write hc with ⟨rfl, -⟩ | hc
  · exact hi
  · exact h c hc

/-- The store a reset event leaves has the canonical form. -/
theorem Memory.empty_wf (n : Nat) : Memory.wf ⟨n, []⟩ = true := rfl

/-- The store at State.reset has the canonical form. -/
theorem State.reset_blk_wf : State.reset.blk.wf = true := rfl

/-! ## Equal stores are equal data -/

theorem lookupCell_eq_none_of_rising {lo i : Nat} (hi : i < lo) {cs : List (Nat × Word)}
    (hr : cellsRising lo cs = true) : lookupCell i cs = none := by
  induction cs generalizing lo with
  | nil => rfl
  | cons c rest ih =>
    obtain ⟨j, w⟩ := c
    simp only [cellsRising, Bool.and_eq_true, decide_eq_true_eq] at hr
    have hj : j ≠ i := by omega
    simp [lookupCell, hj, ih (by omega : i < j + 1) hr.2]

theorem cells_ext {lo : Nat} {cs ds : List (Nat × Word)} (hc : cellsRising lo cs = true)
    (hd : cellsRising lo ds = true) (h : ∀ i, lookupCell i cs = lookupCell i ds) : cs = ds := by
  induction cs generalizing lo ds with
  | nil =>
    cases ds with
    | nil => rfl
    | cons d rest => simpa [lookupCell] using h d.1
  | cons c rest ih =>
    obtain ⟨j, w⟩ := c
    cases ds with
    | nil => simpa [lookupCell] using h j
    | cons d rest' =>
      obtain ⟨k, x⟩ := d
      simp only [cellsRising, Bool.and_eq_true, decide_eq_true_eq] at hc hd
      have hjk : j = k := by
        rcases Nat.lt_trichotomy j k with hlt | heq | hgt
        · have := h j
          simp [lookupCell, Nat.ne_of_gt hlt, lookupCell_eq_none_of_rising (by omega : j < k + 1) hd.2] at this
        · exact heq
        · have := h k
          simp [lookupCell, Nat.ne_of_gt hgt, lookupCell_eq_none_of_rising (by omega : k < j + 1) hc.2] at this
      subst hjk
      have hw : w = x := by simpa [lookupCell] using h j
      subst hw
      congr 1
      refine ih hc.2 hd.2 fun i => ?_
      by_cases hi : j = i
      · subst hi
        rw [lookupCell_eq_none_of_rising (Nat.lt_succ_self j) hc.2,
          lookupCell_eq_none_of_rising (Nat.lt_succ_self j) hd.2]
      · simpa [lookupCell, hi] using h i

theorem lookupCell_mem {i : Nat} {v : Word} {cs : List (Nat × Word)} (h : lookupCell i cs = some v) :
    (i, v) ∈ cs := by
  induction cs with
  | nil => simp [lookupCell] at h
  | cons c rest ih =>
    obtain ⟨j, w⟩ := c
    by_cases hj : j = i
    · subst hj; simp [lookupCell] at h; simp [h]
    · simp only [lookupCell, hj, if_false] at h
      exact List.mem_cons_of_mem _ (ih h)

/-- In canonical form the listed words are exactly the reads that differ from the background. -/
theorem Memory.lookup_of_wf {m : Memory} (h : m.wf = true) (i : Nat) :
    lookupCell i m.cells = if m.read i = m.background i then none else some (m.read i) := by
  simp only [Memory.wf, Bool.and_eq_true, List.all_eq_true, decide_eq_true_eq] at h
  cases hl : lookupCell i m.cells with
  | none => simp [Memory.read, hl]
  | some v =>
    have hne := h.2 _ (lookupCell_mem hl)
    simp only [Memory.read, hl, Option.getD_some]
    rw [if_neg hne]

/-- Two canonical stores that read the same everywhere, after the same number of reset events, are equal data. -/
theorem Memory.ext_of_wf {m n : Memory} (hm : m.wf = true) (hn : n.wf = true) (hr : m.resets = n.resets)
    (h : ∀ i, m.read i = n.read i) : m = n := by
  have hb : ∀ i, m.background i = n.background i := fun i => by simp [Memory.background, hr]
  have hcells : m.cells = n.cells := by
    have hm' := hm
    have hn' := hn
    simp only [Memory.wf, Bool.and_eq_true] at hm' hn'
    refine cells_ext hm'.1 hn'.1 fun i => ?_
    rw [Memory.lookup_of_wf hm, Memory.lookup_of_wf hn, h, hb]
  cases m; cases n; simp_all

end Sys2Proof.Machine
end

