-- ==== Sys2Proof/Laws/State.lean ====
section
/-! SUPPORT. One lemma per field per update of State: what each named update of Ops.lean does to each field. -/

namespace Sys2Proof.Machine

variable (s : State)

/-! ### setKlo -/

@[simp] theorem State.setKlo_klo (v : Word) : (s.setKlo v).klo = v := rfl
@[simp] theorem State.setKlo_khi (v : Word) : (s.setKlo v).khi = s.khi := rfl
@[simp] theorem State.setKlo_iv (v : Word) : (s.setKlo v).iv = s.iv := rfl
@[simp] theorem State.setKlo_len (v : Word) : (s.setKlo v).len = s.len := rfl
@[simp] theorem State.setKlo_blk (v : Word) : (s.setKlo v).blk = s.blk := rfl
@[simp] theorem State.setKlo_code (v : Word) : (s.setKlo v).code = s.code := rfl
@[simp] theorem State.setKlo_t (v : Word) : (s.setKlo v).t = s.t := rfl
@[simp] theorem State.setKlo_phase (v : Word) : (s.setKlo v).phase = s.phase := rfl
@[simp] theorem State.setKlo_idx (v : Word) : (s.setKlo v).idx = s.idx := rfl
@[simp] theorem State.setKlo_cmdr (v : Word) : (s.setKlo v).cmdr = s.cmdr := rfl
@[simp] theorem State.setKlo_cfg (v : Word) : (s.setKlo v).cfg = s.cfg := rfl
@[simp] theorem State.setKlo_host (v : Word) : (s.setKlo v).host = s.host := rfl
@[simp] theorem State.setKlo_replies (v : Word) : (s.setKlo v).replies = s.replies := rfl

/-! ### setKhi -/

@[simp] theorem State.setKhi_klo (v : Word) : (s.setKhi v).klo = s.klo := rfl
@[simp] theorem State.setKhi_khi (v : Word) : (s.setKhi v).khi = v := rfl
@[simp] theorem State.setKhi_iv (v : Word) : (s.setKhi v).iv = s.iv := rfl
@[simp] theorem State.setKhi_len (v : Word) : (s.setKhi v).len = s.len := rfl
@[simp] theorem State.setKhi_blk (v : Word) : (s.setKhi v).blk = s.blk := rfl
@[simp] theorem State.setKhi_code (v : Word) : (s.setKhi v).code = s.code := rfl
@[simp] theorem State.setKhi_t (v : Word) : (s.setKhi v).t = s.t := rfl
@[simp] theorem State.setKhi_phase (v : Word) : (s.setKhi v).phase = s.phase := rfl
@[simp] theorem State.setKhi_idx (v : Word) : (s.setKhi v).idx = s.idx := rfl
@[simp] theorem State.setKhi_cmdr (v : Word) : (s.setKhi v).cmdr = s.cmdr := rfl
@[simp] theorem State.setKhi_cfg (v : Word) : (s.setKhi v).cfg = s.cfg := rfl
@[simp] theorem State.setKhi_host (v : Word) : (s.setKhi v).host = s.host := rfl
@[simp] theorem State.setKhi_replies (v : Word) : (s.setKhi v).replies = s.replies := rfl

/-! ### setIv -/

@[simp] theorem State.setIv_klo (v : Word) : (s.setIv v).klo = s.klo := rfl
@[simp] theorem State.setIv_khi (v : Word) : (s.setIv v).khi = s.khi := rfl
@[simp] theorem State.setIv_iv (v : Word) : (s.setIv v).iv = v := rfl
@[simp] theorem State.setIv_len (v : Word) : (s.setIv v).len = s.len := rfl
@[simp] theorem State.setIv_blk (v : Word) : (s.setIv v).blk = s.blk := rfl
@[simp] theorem State.setIv_code (v : Word) : (s.setIv v).code = s.code := rfl
@[simp] theorem State.setIv_t (v : Word) : (s.setIv v).t = s.t := rfl
@[simp] theorem State.setIv_phase (v : Word) : (s.setIv v).phase = s.phase := rfl
@[simp] theorem State.setIv_idx (v : Word) : (s.setIv v).idx = s.idx := rfl
@[simp] theorem State.setIv_cmdr (v : Word) : (s.setIv v).cmdr = s.cmdr := rfl
@[simp] theorem State.setIv_cfg (v : Word) : (s.setIv v).cfg = s.cfg := rfl
@[simp] theorem State.setIv_host (v : Word) : (s.setIv v).host = s.host := rfl
@[simp] theorem State.setIv_replies (v : Word) : (s.setIv v).replies = s.replies := rfl

/-! ### setLen -/

@[simp] theorem State.setLen_klo (v : Word) : (s.setLen v).klo = s.klo := rfl
@[simp] theorem State.setLen_khi (v : Word) : (s.setLen v).khi = s.khi := rfl
@[simp] theorem State.setLen_iv (v : Word) : (s.setLen v).iv = s.iv := rfl
@[simp] theorem State.setLen_len (v : Word) : (s.setLen v).len = v := rfl
@[simp] theorem State.setLen_blk (v : Word) : (s.setLen v).blk = s.blk := rfl
@[simp] theorem State.setLen_code (v : Word) : (s.setLen v).code = s.code := rfl
@[simp] theorem State.setLen_t (v : Word) : (s.setLen v).t = s.t := rfl
@[simp] theorem State.setLen_phase (v : Word) : (s.setLen v).phase = s.phase := rfl
@[simp] theorem State.setLen_idx (v : Word) : (s.setLen v).idx = s.idx := rfl
@[simp] theorem State.setLen_cmdr (v : Word) : (s.setLen v).cmdr = s.cmdr := rfl
@[simp] theorem State.setLen_cfg (v : Word) : (s.setLen v).cfg = s.cfg := rfl
@[simp] theorem State.setLen_host (v : Word) : (s.setLen v).host = s.host := rfl
@[simp] theorem State.setLen_replies (v : Word) : (s.setLen v).replies = s.replies := rfl

/-! ### setWord -/

@[simp] theorem State.setWord_klo (i : Nat) (v : Word) : (s.setWord i v).klo = s.klo := rfl
@[simp] theorem State.setWord_khi (i : Nat) (v : Word) : (s.setWord i v).khi = s.khi := rfl
@[simp] theorem State.setWord_iv (i : Nat) (v : Word) : (s.setWord i v).iv = s.iv := rfl
@[simp] theorem State.setWord_len (i : Nat) (v : Word) : (s.setWord i v).len = s.len := rfl
@[simp] theorem State.setWord_blk (i : Nat) (v : Word) : (s.setWord i v).blk = s.blk.write i v := rfl
@[simp] theorem State.setWord_code (i : Nat) (v : Word) : (s.setWord i v).code = s.code := rfl
@[simp] theorem State.setWord_t (i : Nat) (v : Word) : (s.setWord i v).t = s.t := rfl
@[simp] theorem State.setWord_phase (i : Nat) (v : Word) : (s.setWord i v).phase = s.phase := rfl
@[simp] theorem State.setWord_idx (i : Nat) (v : Word) : (s.setWord i v).idx = s.idx := rfl
@[simp] theorem State.setWord_cmdr (i : Nat) (v : Word) : (s.setWord i v).cmdr = s.cmdr := rfl
@[simp] theorem State.setWord_cfg (i : Nat) (v : Word) : (s.setWord i v).cfg = s.cfg := rfl
@[simp] theorem State.setWord_host (i : Nat) (v : Word) : (s.setWord i v).host = s.host := rfl
@[simp] theorem State.setWord_replies (i : Nat) (v : Word) : (s.setWord i v).replies = s.replies := rfl

/-! ### setStatus -/

@[simp] theorem State.setStatus_klo (x : Status) : (s.setStatus x).klo = s.klo := rfl
@[simp] theorem State.setStatus_khi (x : Status) : (s.setStatus x).khi = s.khi := rfl
@[simp] theorem State.setStatus_iv (x : Status) : (s.setStatus x).iv = s.iv := rfl
@[simp] theorem State.setStatus_len (x : Status) : (s.setStatus x).len = s.len := rfl
@[simp] theorem State.setStatus_blk (x : Status) : (s.setStatus x).blk = s.blk := rfl
@[simp] theorem State.setStatus_code (x : Status) : (s.setStatus x).code = x.code := rfl
@[simp] theorem State.setStatus_t (x : Status) : (s.setStatus x).t = s.t := rfl
@[simp] theorem State.setStatus_phase (x : Status) : (s.setStatus x).phase = s.phase := rfl
@[simp] theorem State.setStatus_idx (x : Status) : (s.setStatus x).idx = s.idx := rfl
@[simp] theorem State.setStatus_cmdr (x : Status) : (s.setStatus x).cmdr = s.cmdr := rfl
@[simp] theorem State.setStatus_cfg (x : Status) : (s.setStatus x).cfg = s.cfg := rfl
@[simp] theorem State.setStatus_host (x : Status) : (s.setStatus x).host = s.host := rfl
@[simp] theorem State.setStatus_replies (x : Status) : (s.setStatus x).replies = s.replies := rfl

/-! ### setT -/

@[simp] theorem State.setT_klo (v : Word) : (s.setT v).klo = s.klo := rfl
@[simp] theorem State.setT_khi (v : Word) : (s.setT v).khi = s.khi := rfl
@[simp] theorem State.setT_iv (v : Word) : (s.setT v).iv = s.iv := rfl
@[simp] theorem State.setT_len (v : Word) : (s.setT v).len = s.len := rfl
@[simp] theorem State.setT_blk (v : Word) : (s.setT v).blk = s.blk := rfl
@[simp] theorem State.setT_code (v : Word) : (s.setT v).code = s.code := rfl
@[simp] theorem State.setT_t (v : Word) : (s.setT v).t = v := rfl
@[simp] theorem State.setT_phase (v : Word) : (s.setT v).phase = s.phase := rfl
@[simp] theorem State.setT_idx (v : Word) : (s.setT v).idx = s.idx := rfl
@[simp] theorem State.setT_cmdr (v : Word) : (s.setT v).cmdr = s.cmdr := rfl
@[simp] theorem State.setT_cfg (v : Word) : (s.setT v).cfg = s.cfg := rfl
@[simp] theorem State.setT_host (v : Word) : (s.setT v).host = s.host := rfl
@[simp] theorem State.setT_replies (v : Word) : (s.setT v).replies = s.replies := rfl

/-! ### setPhase -/

@[simp] theorem State.setPhase_klo (p : Phase) : (s.setPhase p).klo = s.klo := rfl
@[simp] theorem State.setPhase_khi (p : Phase) : (s.setPhase p).khi = s.khi := rfl
@[simp] theorem State.setPhase_iv (p : Phase) : (s.setPhase p).iv = s.iv := rfl
@[simp] theorem State.setPhase_len (p : Phase) : (s.setPhase p).len = s.len := rfl
@[simp] theorem State.setPhase_blk (p : Phase) : (s.setPhase p).blk = s.blk := rfl
@[simp] theorem State.setPhase_code (p : Phase) : (s.setPhase p).code = s.code := rfl
@[simp] theorem State.setPhase_t (p : Phase) : (s.setPhase p).t = s.t := rfl
@[simp] theorem State.setPhase_phase (p : Phase) : (s.setPhase p).phase = p := rfl
@[simp] theorem State.setPhase_idx (p : Phase) : (s.setPhase p).idx = s.idx := rfl
@[simp] theorem State.setPhase_cmdr (p : Phase) : (s.setPhase p).cmdr = s.cmdr := rfl
@[simp] theorem State.setPhase_cfg (p : Phase) : (s.setPhase p).cfg = s.cfg := rfl
@[simp] theorem State.setPhase_host (p : Phase) : (s.setPhase p).host = s.host := rfl
@[simp] theorem State.setPhase_replies (p : Phase) : (s.setPhase p).replies = s.replies := rfl

/-! ### setIdx -/

@[simp] theorem State.setIdx_klo (i : Word) : (s.setIdx i).klo = s.klo := rfl
@[simp] theorem State.setIdx_khi (i : Word) : (s.setIdx i).khi = s.khi := rfl
@[simp] theorem State.setIdx_iv (i : Word) : (s.setIdx i).iv = s.iv := rfl
@[simp] theorem State.setIdx_len (i : Word) : (s.setIdx i).len = s.len := rfl
@[simp] theorem State.setIdx_blk (i : Word) : (s.setIdx i).blk = s.blk := rfl
@[simp] theorem State.setIdx_code (i : Word) : (s.setIdx i).code = s.code := rfl
@[simp] theorem State.setIdx_t (i : Word) : (s.setIdx i).t = s.t := rfl
@[simp] theorem State.setIdx_phase (i : Word) : (s.setIdx i).phase = s.phase := rfl
@[simp] theorem State.setIdx_idx (i : Word) : (s.setIdx i).idx = i := rfl
@[simp] theorem State.setIdx_cmdr (i : Word) : (s.setIdx i).cmdr = s.cmdr := rfl
@[simp] theorem State.setIdx_cfg (i : Word) : (s.setIdx i).cfg = s.cfg := rfl
@[simp] theorem State.setIdx_host (i : Word) : (s.setIdx i).host = s.host := rfl
@[simp] theorem State.setIdx_replies (i : Word) : (s.setIdx i).replies = s.replies := rfl

/-! ### setCmdr -/

@[simp] theorem State.setCmdr_klo (w : BitVec 4) : (s.setCmdr w).klo = s.klo := rfl
@[simp] theorem State.setCmdr_khi (w : BitVec 4) : (s.setCmdr w).khi = s.khi := rfl
@[simp] theorem State.setCmdr_iv (w : BitVec 4) : (s.setCmdr w).iv = s.iv := rfl
@[simp] theorem State.setCmdr_len (w : BitVec 4) : (s.setCmdr w).len = s.len := rfl
@[simp] theorem State.setCmdr_blk (w : BitVec 4) : (s.setCmdr w).blk = s.blk := rfl
@[simp] theorem State.setCmdr_code (w : BitVec 4) : (s.setCmdr w).code = s.code := rfl
@[simp] theorem State.setCmdr_t (w : BitVec 4) : (s.setCmdr w).t = s.t := rfl
@[simp] theorem State.setCmdr_phase (w : BitVec 4) : (s.setCmdr w).phase = s.phase := rfl
@[simp] theorem State.setCmdr_idx (w : BitVec 4) : (s.setCmdr w).idx = s.idx := rfl
@[simp] theorem State.setCmdr_cmdr (w : BitVec 4) : (s.setCmdr w).cmdr = w := rfl
@[simp] theorem State.setCmdr_cfg (w : BitVec 4) : (s.setCmdr w).cfg = s.cfg := rfl
@[simp] theorem State.setCmdr_host (w : BitVec 4) : (s.setCmdr w).host = s.host := rfl
@[simp] theorem State.setCmdr_replies (w : BitVec 4) : (s.setCmdr w).replies = s.replies := rfl

/-! ### setHost -/

@[simp] theorem State.setHost_klo (es : List HostEvent) : (s.setHost es).klo = s.klo := rfl
@[simp] theorem State.setHost_khi (es : List HostEvent) : (s.setHost es).khi = s.khi := rfl
@[simp] theorem State.setHost_iv (es : List HostEvent) : (s.setHost es).iv = s.iv := rfl
@[simp] theorem State.setHost_len (es : List HostEvent) : (s.setHost es).len = s.len := rfl
@[simp] theorem State.setHost_blk (es : List HostEvent) : (s.setHost es).blk = s.blk := rfl
@[simp] theorem State.setHost_code (es : List HostEvent) : (s.setHost es).code = s.code := rfl
@[simp] theorem State.setHost_t (es : List HostEvent) : (s.setHost es).t = s.t := rfl
@[simp] theorem State.setHost_phase (es : List HostEvent) : (s.setHost es).phase = s.phase := rfl
@[simp] theorem State.setHost_idx (es : List HostEvent) : (s.setHost es).idx = s.idx := rfl
@[simp] theorem State.setHost_cmdr (es : List HostEvent) : (s.setHost es).cmdr = s.cmdr := rfl
@[simp] theorem State.setHost_cfg (es : List HostEvent) : (s.setHost es).cfg = s.cfg := rfl
@[simp] theorem State.setHost_host (es : List HostEvent) : (s.setHost es).host = es := rfl
@[simp] theorem State.setHost_replies (es : List HostEvent) : (s.setHost es).replies = s.replies := rfl

/-! ### answer -/

@[simp] theorem State.answer_klo (r : Reply) : (s.answer r).klo = s.klo := rfl
@[simp] theorem State.answer_khi (r : Reply) : (s.answer r).khi = s.khi := rfl
@[simp] theorem State.answer_iv (r : Reply) : (s.answer r).iv = s.iv := rfl
@[simp] theorem State.answer_len (r : Reply) : (s.answer r).len = s.len := rfl
@[simp] theorem State.answer_blk (r : Reply) : (s.answer r).blk = s.blk := rfl
@[simp] theorem State.answer_code (r : Reply) : (s.answer r).code = s.code := rfl
@[simp] theorem State.answer_t (r : Reply) : (s.answer r).t = s.t := rfl
@[simp] theorem State.answer_phase (r : Reply) : (s.answer r).phase = s.phase := rfl
@[simp] theorem State.answer_idx (r : Reply) : (s.answer r).idx = s.idx := rfl
@[simp] theorem State.answer_cmdr (r : Reply) : (s.answer r).cmdr = s.cmdr := rfl
@[simp] theorem State.answer_cfg (r : Reply) : (s.answer r).cfg = s.cfg := rfl
@[simp] theorem State.answer_host (r : Reply) : (s.answer r).host = s.host := rfl
@[simp] theorem State.answer_replies (r : Reply) : (s.answer r).replies = r :: s.replies := rfl

/-! ### raise -/

@[simp] theorem State.raise_klo (x : Status) : (s.raise x).klo = s.klo := rfl
@[simp] theorem State.raise_khi (x : Status) : (s.raise x).khi = s.khi := rfl
@[simp] theorem State.raise_iv (x : Status) : (s.raise x).iv = s.iv := rfl
@[simp] theorem State.raise_len (x : Status) : (s.raise x).len = s.len := rfl
@[simp] theorem State.raise_blk (x : Status) : (s.raise x).blk = s.blk := rfl
@[simp] theorem State.raise_code (x : Status) : (s.raise x).code = x.code := rfl
@[simp] theorem State.raise_t (x : Status) : (s.raise x).t = s.t := rfl
@[simp] theorem State.raise_phase (x : Status) : (s.raise x).phase = .idle := rfl
@[simp] theorem State.raise_idx (x : Status) : (s.raise x).idx = s.idx := rfl
@[simp] theorem State.raise_cmdr (x : Status) : (s.raise x).cmdr = s.cmdr := rfl
@[simp] theorem State.raise_cfg (x : Status) : (s.raise x).cfg = s.cfg := rfl
@[simp] theorem State.raise_host (x : Status) : (s.raise x).host = s.host := rfl
@[simp] theorem State.raise_replies (x : Status) : (s.raise x).replies = s.replies := rfl

/-! ### succeed -/

@[simp] theorem State.succeed_klo : (s.succeed).klo = s.klo := rfl
@[simp] theorem State.succeed_khi : (s.succeed).khi = s.khi := rfl
@[simp] theorem State.succeed_iv : (s.succeed).iv = s.iv := rfl
@[simp] theorem State.succeed_len : (s.succeed).len = s.len := rfl
@[simp] theorem State.succeed_blk : (s.succeed).blk = s.blk := rfl
@[simp] theorem State.succeed_code : (s.succeed).code = Status.success.code := rfl
@[simp] theorem State.succeed_t : (s.succeed).t = s.t := rfl
@[simp] theorem State.succeed_phase : (s.succeed).phase = .idle := rfl
@[simp] theorem State.succeed_idx : (s.succeed).idx = s.idx := rfl
@[simp] theorem State.succeed_cmdr : (s.succeed).cmdr = s.cmdr := rfl
@[simp] theorem State.succeed_cfg : (s.succeed).cfg = s.cfg := rfl
@[simp] theorem State.succeed_host : (s.succeed).host = s.host := rfl
@[simp] theorem State.succeed_replies : (s.succeed).replies = s.replies := rfl

/-! ### issue -/

@[simp] theorem State.issue_klo (w : BitVec 4) : (s.issue w).klo = s.klo := rfl
@[simp] theorem State.issue_khi (w : BitVec 4) : (s.issue w).khi = s.khi := rfl
@[simp] theorem State.issue_iv (w : BitVec 4) : (s.issue w).iv = s.iv := rfl
@[simp] theorem State.issue_len (w : BitVec 4) : (s.issue w).len = s.len := rfl
@[simp] theorem State.issue_blk (w : BitVec 4) : (s.issue w).blk = s.blk := rfl
@[simp] theorem State.issue_code (w : BitVec 4) : (s.issue w).code = s.code := rfl
@[simp] theorem State.issue_t (w : BitVec 4) : (s.issue w).t = s.t := rfl
@[simp] theorem State.issue_phase (w : BitVec 4) : (s.issue w).phase = .validate := rfl
@[simp] theorem State.issue_idx (w : BitVec 4) : (s.issue w).idx = s.idx := rfl
@[simp] theorem State.issue_cmdr (w : BitVec 4) : (s.issue w).cmdr = w := rfl
@[simp] theorem State.issue_cfg (w : BitVec 4) : (s.issue w).cfg = s.cfg := rfl
@[simp] theorem State.issue_host (w : BitVec 4) : (s.issue w).host = s.host := rfl
@[simp] theorem State.issue_replies (w : BitVec 4) : (s.issue w).replies = s.replies := rfl

/-! ### assertReset: what the spec fixes, and what is the model's own -/

@[simp] theorem State.assertReset_phase : s.assertReset.phase = .idle := rfl
@[simp] theorem State.assertReset_cfg : s.assertReset.cfg = s.cfg := rfl
@[simp] theorem State.assertReset_host : s.assertReset.host = s.host := rfl
@[simp] theorem State.assertReset_replies : s.assertReset.replies = s.replies := rfl
@[simp] theorem State.assertReset_blk : s.assertReset.blk = ⟨s.blk.resets + 1, []⟩ := rfl

end Sys2Proof.Machine
end

