-- ==== Sys2Proof/Laws/Calls.lean ====
section
/-! SUPPORT. What running a host program and finishing a call can do, said once each. -/

namespace Sys2Proof.Machine

/-! ## Status codes -/

@[simp] theorem statusOfCode_code (x : Status) : statusOfCode x.code = some x := by cases x <;> rfl

/-- A code that names a status is that status's code. -/
theorem code_of_statusOfCode {c : BitVec 3} {x : Status} (h : statusOfCode c = some x) : x.code = c := by
  revert h x
  revert c
  decide +revert

/-! ## Running the host's input -/

/-- With no input left a run is over. -/
theorem runHost_done {s : State} (fuel : Nat) (h : s.host = []) : runHost fuel s = .next s := by
  cases fuel <;> simp [runHost, h]

/-- With input left a run takes one step. -/
theorem runHost_step {s t : State} (fuel : Nat) (h : s.host ≠ []) (hs : step s = .next t) :
    runHost (fuel + 1) s = runHost fuel t := by
  simp [runHost, h, hs]

/-- A run that is over does not change with more fuel. -/
theorem runHost_more {fuel more : Nat} {s t : State} (h : runHost fuel s = .next t) (ht : t.host = []) :
    runHost (fuel + more) s = .next t := by
  induction fuel generalizing s with
  | zero =>
    obtain rfl : s = t := by simpa [runHost] using h
    exact runHost_done _ ht
  | succ fuel ih =>
    rw [show fuel + 1 + more = fuel + more + 1 by omega]
    unfold runHost at h ⊢
    split_ifs at h ⊢ with h0
    · exact h
    · split at h
      · exact ih h
      · cases h
      · cases h

/-! ## The writes of a call -/

/-- A store with the values of a list written from index `n`: the values there, every other word as it was. -/
theorem Memory.read_writeFrom (bs : List Word) (n : Nat) (m : Memory) (i : Nat) :
    (Memory.writeFrom n bs m).read i = if h : n ≤ i ∧ i - n < bs.length then bs[i - n] else m.read i := by
  induction bs generalizing n m with
  | nil => simp [Memory.writeFrom]
  | cons b bs ih =>
    simp only [Memory.writeFrom, ih]
    by_cases h : n + 1 ≤ i ∧ i - (n + 1) < bs.length
    · rw [dif_pos h, dif_pos (by simp; omega)]
      obtain ⟨k, rfl⟩ : ∃ k, i = n + 1 + k := ⟨i - (n + 1), by omega⟩
      simp [show n + 1 + k - n = k + 1 by omega]
    · rw [dif_neg h, Memory.read_write]
      split_ifs with h1 h2 h2
      · subst h1; simp
      · subst h1; simp at h2
      · simp at h2; omega
      · rfl

/-! ## Going on after a run -/

@[simp] theorem thenCall_next (s : State) (f : State → CallOutcome) : thenCall (.next s) f = f s := rfl

/-- A call that answers a result came through a state. -/
theorem thenCall_eq_next {r : Result} {f : State → CallOutcome} {c : CallResult} (h : thenCall r f = .next c) :
    ∃ s, r = .next s ∧ f s = .next c := by
  cases r with
  | next s => exact ⟨s, rfl, h⟩
  | fault x => cases h
  | refused x => cases h

/-- STATUS read with BUSY = 0 reports the status of its code. -/
theorem reportedStatus_of_wait {s : State} {x : Status} {rs : List Reply}
    (h : s.replies = .status (0#1 ++ x.code) :: rs) :
    s.reportedStatus = some x := by
  simp only [State.reportedStatus, h]
  cases x <;> rfl

/-- On any status but Success a call reads nothing back. -/
theorem finishCall_failed {a : CallArgs} {s : State} (h : s.reportedStatus ≠ some .success) :
    finishCall a s = .next ⟨s.reportedStatus, a, s⟩ := by
  unfold finishCall
  split
  · exact absurd ‹_› h
  · rfl

/-- On Success a call runs the read-back. -/
theorem finishCall_success {a : CallArgs} {s : State} (h : s.reportedStatus = some .success) :
    finishCall a s = thenCall (runEvents (hostProgram (readBackLines a.length)) 0#32 s) fun t =>
      .next ⟨some .success, a.readBack (t.wordsRead (a.length.toNat + 1)), t⟩ := by
  unfold finishCall
  rw [h]

end Sys2Proof.Machine
end

