-- ==== Sys2Proof/Laws/Ops.lean ====
section
/-! SUPPORT. One lemma per shared operation that says everything it can do, for proofs to cite instead of unfolding
it. -/

namespace Sys2Proof.Machine

/-! ## Preconditions of the host -/

theorem whenIdle_of_idle {s : State} (h : s.phase = .idle) (r : Result) : whenIdle s r = r := by
  simp [whenIdle, h]

theorem whenIdle_of_busy {s : State} (h : s.phase ≠ .idle) (r : Result) :
    whenIdle s r = .refused .hostAccessWhileBusy := by
  simp [whenIdle, h]

/-- A transition with the precondition IDLE that answers a next state ran in IDLE. -/
theorem whenIdle_next {s t : State} {r : Result} (h : whenIdle s r = .next t) : s.phase = .idle ∧ r = .next t := by
  unfold whenIdle at h
  split at h
  · exact ⟨‹_›, h⟩
  · cases h

theorem whenInStore_next {s t : State} {n : Word} {r : Result} (h : whenInStore s n r = .next t) :
    n.toNat < s.cfg.maxLen ∧ r = .next t := by
  unfold whenInStore at h
  split at h
  · exact ⟨‹_›, h⟩
  · cases h

theorem whenLengthFits_next {s t : State} {r : Result} (h : whenLengthFits s r = .next t) :
    s.len.toNat ≤ s.cfg.maxLen ∧ r = .next t := by
  unfold whenLengthFits at h
  split at h
  · exact ⟨‹_›, h⟩
  · cases h

/-! ## Core reads and operands -/

theorem State.coreRead_of_lt {s : State} {i : Nat} (h : i < s.cfg.maxLen) : s.coreRead i = .ok (s.blk.read i) := by
  simp [State.coreRead, h]

/-- `lower(x)` inside the store. -/
theorem State.secondOperand_lower {s : State} (h : s.idx.toNat < s.cfg.maxLen) :
    s.secondOperand .lower = .ok (lowerOf s.klo s.idx.toNat s.blk) := by
  by_cases h0 : s.idx = 0#32
  · simp [State.secondOperand, State.atLowEnd, lowerOf, h0]
  · have hne : s.idx.toNat ≠ 0 := fun e => h0 (BitVec.eq_of_toNat_eq (by simpa using e))
    have hlt : s.idx.toNat - 1 < s.cfg.maxLen := by omega
    simp [State.secondOperand, State.atLowEnd, lowerOf, h0, hne, State.coreRead_of_lt hlt]

/-- `upper(x)` inside the sequence. -/
theorem State.secondOperand_upper {s : State} (hx : s.idx.toNat < s.len.toNat) (hl : s.len.toNat ≤ s.cfg.maxLen) :
    s.secondOperand .upper = .ok (upperOf s.khi s.len.toNat s.idx.toNat s.blk) := by
  by_cases h1 : s.idx.toNat + 1 = s.len.toNat
  · simp [State.secondOperand, State.atHighEnd, upperOf, h1]
  · have hlt : s.idx.toNat + 1 < s.cfg.maxLen := by omega
    simp [State.secondOperand, State.atHighEnd, upperOf, h1, State.coreRead_of_lt hlt]

/-! ## Micro-operations and steps -/

/-- Everything a micro-operation that succeeds does. -/
theorem microOp_ok {d : Dir} {w : Wiring} {s u : State} (h : microOp d w s = .ok u) :
    ∃ a b, s.firstOperand w.first = .ok a ∧ s.secondOperand w.second = .ok b ∧
      u = (s.putResult (combine d (s.counterOperand w.counter) a b).1 w.first).putCounter
        (combine d (s.counterOperand w.counter) a b).2 w.counter := by
  unfold microOp at h
  split at h
  · rename_i a b ha hb
    exact ⟨a, b, ha, hb, by simpa using h.symm⟩
  · cases h
  · cases h

/-- A micro-operation whose operands can be read succeeds. -/
theorem microOp_of_operands {d : Dir} {w : Wiring} {s : State} {a b : Word} (ha : s.firstOperand w.first = .ok a)
    (hb : s.secondOperand w.second = .ok b) :
    microOp d w s = .ok ((s.putResult (combine d (s.counterOperand w.counter) a b).1 w.first).putCounter
      (combine d (s.counterOperand w.counter) a b).2 w.counter) := by
  simp [microOp, ha, hb]

/-- A step that answers a next state is its micro-operation and then the sequencer's move. -/
theorem stepWith_next {d : Dir} {w : Wiring} {move : State → State} {s t : State}
    (h : stepWith d w move s = .next t) : ∃ u, microOp d w s = .ok u ∧ t = move u := by
  unfold stepWith at h
  split at h
  · rename_i u hu
    exact ⟨u, hu, by simpa using h.symm⟩
  · cases h

theorem stepWith_of_microOp {d : Dir} {w : Wiring} {move : State → State} {s u : State}
    (h : microOp d w s = .ok u) : stepWith d w move s = .next (move u) := by
  simp [stepWith, h]

/-! ## Commands -/

/-- Everything a whole command that answers a next state does. -/
theorem runCommand_next {f : Word → Word → Nat → Chain → Chain} {w : BitVec 4} {s t : State}
    (h : runCommand f w s = .next t) :
    s.phase = .idle ∧ s.len.toNat ≤ s.cfg.maxLen ∧
      ((∃ x, firstFailure (kpBit w) (ipBit w) (dpBit w) s.len = some x ∧ t = (s.setCmdr w).raise x) ∨
        (firstFailure (kpBit w) (ipBit w) (dpBit w) s.len = none ∧
          t = { s with
                blk := (f s.klo s.khi s.len.toNat (s.blk, s.iv)).1
                iv := (f s.klo s.khi s.len.toNat (s.blk, s.iv)).2
                code := Status.success.code
                t := 2#32
                idx := 0#32
                cmdr := w })) := by
  obtain ⟨hidle, h⟩ := whenIdle_next h
  obtain ⟨hlen, h⟩ := whenLengthFits_next h
  refine ⟨hidle, hlen, ?_⟩
  split at h
  · rename_i x hx
    exact .inl ⟨x, hx, by simpa using h.symm⟩
  · rename_i hn
    exact .inr ⟨hn, by simpa using h.symm⟩

/-! ## The step -/

/-- Everything a step that answers a next state does: it runs the decoded instruction it fetched, or takes a reset
event. -/
theorem step_next {s t : State} (h : step s = .next t) :
    (∃ e i u, fetch s = .instr e u ∧ decode e = .ok i ∧ exec i u = .next t) ∨
      ∃ u, fetch s = .reset u ∧ t = u.assertReset := by
  unfold step at h
  split at h
  · rename_i e u hf
    unfold runForm at h
    split at h
    · rename_i i hd
      exact .inl ⟨e, i, u, hf, hd, h⟩
    · cases h
  · rename_i u hf
    exact .inr ⟨u, hf, by simpa using h.symm⟩

end Sys2Proof.Machine
end

