-- ==== Sys2Proof/Laws/Passes.lean ====
section
/-! SUPPORT. What one pass of a transform does, said once: the counter it ends with, each word it writes, and that it
writes no other word. The counter arithmetic is `BitVec.ofNat 32`. -/

namespace Sys2Proof.Machine

/-- One step up and then `n` steps up. -/
theorem count_up (c : Word) (n : Nat) : c + 1#32 + BitVec.ofNat 32 n = c + BitVec.ofNat 32 (n + 1) := by
  have h : BitVec.ofNat 32 (n + 1) = 1#32 + BitVec.ofNat 32 n := by rw [Nat.add_comm]; exact BitVec.ofNat_add ..
  rw [h, BitVec.add_assoc]

/-- One step down and then `n` steps down. -/
theorem count_down (c : Word) (n : Nat) : c - 1#32 - BitVec.ofNat 32 n = c - BitVec.ofNat 32 (n + 1) := by
  have h : BitVec.ofNat 32 (n + 1) = 1#32 + BitVec.ofNat 32 n := by rw [Nat.add_comm]; exact BitVec.ofNat_add ..
  rw [h]
  ring

/-- One iteration, with the store and the counter apart. -/
theorem chainStep_pair (d : Dir) (i : Nat) (b : Word) (m : Memory) (c : Word) :
    chainStep d i b (m, c) = (m.write i (combine d c (m.read i) b).1, (combine d c (m.read i) b).2) := rfl

theorem lowerOf_congr {klo : Word} {a : Nat} {m m' : Memory} (h : a ≠ 0 → m.read (a - 1) = m'.read (a - 1)) :
    lowerOf klo a m = lowerOf klo a m' := by
  unfold lowerOf
  split_ifs with h0
  · rfl
  · exact h h0

theorem upperOf_congr {khi : Word} {n a : Nat} {m m' : Memory} (h : m.read (a + 1) = m'.read (a + 1)) :
    upperOf khi n a m = upperOf khi n a m' := by
  unfold upperOf
  split_ifs
  · rfl
  · exact h

/-- ENCODE's pass 1 (42_encoder.md R110): each word takes in its lower neighbour as already written. -/
theorem encodeRising (klo : Word) (k i : Nat) (m : Memory) (c : Word) :
    (risingPass (fun i q => chainStep .fwd i (lowerOf klo i q.1) q) k i (m, c)).2 = c + BitVec.ofNat 32 k ∧
    (∀ a, i ≤ a → a < i + k →
      (risingPass (fun i q => chainStep .fwd i (lowerOf klo i q.1) q) k i (m, c)).1.read a =
        m.read a ^^^
          lowerOf klo a (risingPass (fun i q => chainStep .fwd i (lowerOf klo i q.1) q) k i (m, c)).1 ^^^
          (c + BitVec.ofNat 32 (a - i))) ∧
    (∀ a, a < i ∨ i + k ≤ a →
      (risingPass (fun i q => chainStep .fwd i (lowerOf klo i q.1) q) k i (m, c)).1.read a = m.read a) := by
  induction k generalizing i m c with
  | zero => exact ⟨by simp [risingPass], fun a _ _ => by omega, fun a _ => rfl⟩
  | succ k ih =>
    simp only [risingPass]
    rw [chainStep_pair]
    obtain ⟨h1, h2, h3⟩ := ih (i + 1) (m.write i (combine .fwd c (m.read i) (lowerOf klo i m)).1)
      (combine .fwd c (m.read i) (lowerOf klo i m)).2
    simp only [combine, forwardCombine] at h1 h2 h3 ⊢
    refine ⟨?_, fun a ha hb => ?_, fun a ha => ?_⟩
    · rw [h1, count_up]
    · rcases Nat.lt_or_ge i a with h | h
      · rw [h2 a (by omega) (by omega), Memory.read_write_other _ (by omega : a ≠ i),
          show a - i = a - (i + 1) + 1 by omega, count_up]
      · obtain rfl : a = i := by omega
        rw [h3 a (by omega), Memory.read_write_same, Nat.sub_self, show c + BitVec.ofNat 32 0 = c from BitVec.add_zero c]
        congr 2
        refine lowerOf_congr fun h0 => ?_
        rw [h3 (a - 1) (by omega), Memory.read_write_other _ (by omega)]
    · rw [h3 a (by omega), Memory.read_write_other _ (by omega)]

/-- ENCODE's pass 2 (42_encoder.md R110): each word takes in its upper neighbour as already written. -/
theorem encodeFalling (khi : Word) (n k : Nat) (m : Memory) (c : Word) :
    (fallingPass (fun j q => chainStep .fwd j (upperOf khi n j q.1) q) k (m, c)).2 = c + BitVec.ofNat 32 k ∧
    (∀ a, a < k →
      (fallingPass (fun j q => chainStep .fwd j (upperOf khi n j q.1) q) k (m, c)).1.read a =
        m.read a ^^^
          upperOf khi n a (fallingPass (fun j q => chainStep .fwd j (upperOf khi n j q.1) q) k (m, c)).1 ^^^
          (c + BitVec.ofNat 32 (k - 1 - a))) ∧
    (∀ a, k ≤ a →
      (fallingPass (fun j q => chainStep .fwd j (upperOf khi n j q.1) q) k (m, c)).1.read a = m.read a) := by
  induction k generalizing m c with
  | zero => exact ⟨by simp [fallingPass], fun a _ => by omega, fun a _ => rfl⟩
  | succ k ih =>
    simp only [fallingPass]
    rw [chainStep_pair]
    obtain ⟨h1, h2, h3⟩ := ih (m.write k (combine .fwd c (m.read k) (upperOf khi n k m)).1)
      (combine .fwd c (m.read k) (upperOf khi n k m)).2
    simp only [combine, forwardCombine] at h1 h2 h3 ⊢
    refine ⟨?_, fun a ha => ?_, fun a ha => ?_⟩
    · rw [h1, count_up]
    · rcases Nat.lt_or_ge a k with h | h
      · rw [h2 a h, Memory.read_write_other _ (by omega : a ≠ k), show k + 1 - 1 - a = k - 1 - a + 1 by omega,
          count_up]
      · obtain rfl : a = k := by omega
        rw [h3 a (by omega), Memory.read_write_same, show a + 1 - 1 - a = 0 by omega,
          show c + BitVec.ofNat 32 0 = c from BitVec.add_zero c]
        congr 2
        refine upperOf_congr ?_
        rw [h3 (a + 1) (by omega), Memory.read_write_other _ (by omega)]
    · rw [h3 a (by omega), Memory.read_write_other _ (by omega)]

/-- DECODE's pass 1 (43_decoder.md R130): each word takes in its upper neighbour as it was before the pass. -/
theorem decodeRising (khi : Word) (n k i : Nat) (m : Memory) (c : Word) :
    (risingPass (fun i q => chainStep .bwd i (upperOf khi n i q.1) q) k i (m, c)).2 = c - BitVec.ofNat 32 k ∧
    (∀ a, i ≤ a → a < i + k →
      (risingPass (fun i q => chainStep .bwd i (upperOf khi n i q.1) q) k i (m, c)).1.read a =
        m.read a ^^^ upperOf khi n a m ^^^ (c - 1#32 - BitVec.ofNat 32 (a - i))) ∧
    (∀ a, a < i ∨ i + k ≤ a →
      (risingPass (fun i q => chainStep .bwd i (upperOf khi n i q.1) q) k i (m, c)).1.read a = m.read a) := by
  induction k generalizing i m c with
  | zero => exact ⟨by simp [risingPass], fun a _ _ => by omega, fun a _ => rfl⟩
  | succ k ih =>
    simp only [risingPass]
    rw [chainStep_pair]
    obtain ⟨h1, h2, h3⟩ := ih (i + 1) (m.write i (combine .bwd c (m.read i) (upperOf khi n i m)).1)
      (combine .bwd c (m.read i) (upperOf khi n i m)).2
    simp only [combine, backwardCombine] at h1 h2 h3 ⊢
    refine ⟨?_, fun a ha hb => ?_, fun a ha => ?_⟩
    · rw [h1, count_down]
    · rcases Nat.lt_or_ge i a with h | h
      · rw [h2 a (by omega) (by omega), Memory.read_write_other _ (by omega : a ≠ i),
          upperOf_congr (Memory.read_write_other m (by omega) _), show a - i = a - (i + 1) + 1 by omega, count_down]
      · obtain rfl : a = i := by omega
        rw [h3 a (by omega), Memory.read_write_same, Nat.sub_self,
          show c - 1#32 - BitVec.ofNat 32 0 = c - 1#32 from BitVec.sub_zero _]
    · rw [h3 a (by omega), Memory.read_write_other _ (by omega)]

/-- DECODE's pass 2 (43_decoder.md R130): each word takes in its lower neighbour as it was before the pass. -/
theorem decodeFalling (klo : Word) (k : Nat) (m : Memory) (c : Word) :
    (fallingPass (fun j q => chainStep .bwd j (lowerOf klo j q.1) q) k (m, c)).2 = c - BitVec.ofNat 32 k ∧
    (∀ a, a < k →
      (fallingPass (fun j q => chainStep .bwd j (lowerOf klo j q.1) q) k (m, c)).1.read a =
        m.read a ^^^ lowerOf klo a m ^^^ (c - BitVec.ofNat 32 (k - a))) ∧
    (∀ a, k ≤ a →
      (fallingPass (fun j q => chainStep .bwd j (lowerOf klo j q.1) q) k (m, c)).1.read a = m.read a) := by
  induction k generalizing m c with
  | zero => exact ⟨by simp [fallingPass], fun a _ => by omega, fun a _ => rfl⟩
  | succ k ih =>
    simp only [fallingPass]
    rw [chainStep_pair]
    obtain ⟨h1, h2, h3⟩ := ih (m.write k (combine .bwd c (m.read k) (lowerOf klo k m)).1)
      (combine .bwd c (m.read k) (lowerOf klo k m)).2
    simp only [combine, backwardCombine] at h1 h2 h3 ⊢
    refine ⟨?_, fun a ha => ?_, fun a ha => ?_⟩
    · rw [h1, count_down]
    · rcases Nat.lt_or_ge a k with h | h
      · rw [h2 a h, Memory.read_write_other _ (by omega : a ≠ k),
          lowerOf_congr fun _ => Memory.read_write_other m (by omega : a - 1 ≠ k) _,
          show k + 1 - a = k - a + 1 by omega, count_down]
      · obtain rfl : a = k := by omega
        rw [h3 a (by omega), Memory.read_write_same, show a + 1 - a = 1 by omega]
    · rw [h3 a (by omega), Memory.read_write_other _ (by omega)]

/-! ## What holds of a store all through a transform -/

/-- A property of stores that every write below `n` keeps holds after a rising pass below `n`. -/
theorem risingPass_keeps {P : Memory → Prop} {body : Nat → Chain → Chain} {n : Nat}
    (hb : ∀ i q, i < n → P q.1 → P (body i q).1) {k i : Nat} {p : Chain} (hi : i + k ≤ n) (h : P p.1) :
    P (risingPass body k i p).1 := by
  induction k generalizing i p with
  | zero => exact h
  | succ k ih => exact ih (by omega) (hb i p (by omega) h)

/-- The same for a falling pass. -/
theorem fallingPass_keeps {P : Memory → Prop} {body : Nat → Chain → Chain} {n : Nat}
    (hb : ∀ i q, i < n → P q.1 → P (body i q).1) {k : Nat} {p : Chain} (hk : k ≤ n) (h : P p.1) :
    P (fallingPass body k p).1 := by
  induction k generalizing p with
  | zero => exact h
  | succ k ih => exact ih (by omega) (hb k p (by omega) h)

/-- A property of stores that every write below `n` keeps holds after ENCODE's transform over `n` blocks. -/
theorem encodeChain_keeps {P : Memory → Prop} {n : Nat} (hP : ∀ m i v, i < n → P m → P (m.write i v))
    (klo khi : Word) {p : Chain} (h : P p.1) : P (encodeChain klo khi n p).1 :=
  fallingPass_keeps (n := n) (fun _ _ hi hq => hP _ _ _ hi hq) le_rfl
    (risingPass_keeps (n := n) (fun _ _ hi hq => hP _ _ _ hi hq) (by omega) h)

/-- The same for DECODE's transform. -/
theorem decodeChain_keeps {P : Memory → Prop} {n : Nat} (hP : ∀ m i v, i < n → P m → P (m.write i v))
    (klo khi : Word) {p : Chain} (h : P p.1) : P (decodeChain klo khi n p).1 :=
  fallingPass_keeps (n := n) (fun _ _ hi hq => hP _ _ _ hi hq) le_rfl
    (risingPass_keeps (n := n) (fun _ _ hi hq => hP _ _ _ hi hq) (by omega) h)

end Sys2Proof.Machine
end

