-- ==== Sys2Proof/Laws/PerInstr.lean ====
section
/-! SUPPORT. Every instruction's encoding has the width, and the fixed bits, that its row of spec/opcode_table.json
gives it: the family MatchesTable, one lemma per constructor. -/

namespace Sys2Proof.Laws.MatchesTable

/-- A row's `width`, `mask` and `match`, copied from the opcode table. -/
structure Row where
  width : Nat
  mask : Nat
  value : Nat
deriving DecidableEq, Repr

/-- The table's row of each instruction. -/
def row : Instr → Row
  | .encode _ _ _ => ⟨4, 0x1, 0x0⟩
  | .decode _ _ _ => ⟨4, 0x1, 0x1⟩
  | .fwd => ⟨1, 0x1, 0x0⟩
  | .bwd => ⟨1, 0x1, 0x1⟩
  | .idle => ⟨4, 0xF, 0x0⟩
  | .validate => ⟨4, 0xF, 0x1⟩
  | .encP1 => ⟨4, 0xF, 0x2⟩
  | .encP2 => ⟨4, 0xF, 0x3⟩
  | .encW0 => ⟨4, 0xF, 0x4⟩
  | .encW1 => ⟨4, 0xF, 0x5⟩
  | .decU0 => ⟨4, 0xF, 0x6⟩
  | .decU1 => ⟨4, 0xF, 0x7⟩
  | .decP1 => ⟨4, 0xF, 0x8⟩
  | .decP2 => ⟨4, 0xF, 0x9⟩
  | .rd _ => ⟨2, 0x3, 0x0⟩
  | .wr _ _ => ⟨2, 0x3, 0x1⟩
  | .rdb _ => ⟨2, 0x3, 0x2⟩
  | .wrb _ _ => ⟨2, 0x3, 0x3⟩

/-- The encoded bits the table speaks of, with their width: for a transaction its header, beside which "addr and data
travel". -/
def tableBits : Encoded → Nat × Nat
  | .cmd w => (4, w.toNat)
  | .uop dir => (1, dir.toNat)
  | .step code => (4, code.toNat)
  | .host hdr _ _ => (2, hdr.toNat)

/-- An instruction's encoding fits its row of the table. -/
def Statement (i : Instr) : Prop :=
  (tableBits (encode i)).1 = (row i).width ∧ (tableBits (encode i)).2 &&& (row i).mask = (row i).value

theorem encode (kp ip dp : Bool) : Statement (.encode kp ip dp) := by
  cases kp <;> cases ip <;> cases dp <;> exact ⟨rfl, rfl⟩
theorem decode (kp ip dp : Bool) : Statement (.decode kp ip dp) := by
  cases kp <;> cases ip <;> cases dp <;> exact ⟨rfl, rfl⟩
theorem fwd : Statement .fwd := ⟨rfl, rfl⟩
theorem bwd : Statement .bwd := ⟨rfl, rfl⟩
theorem idle : Statement .idle := ⟨rfl, rfl⟩
theorem validate : Statement .validate := ⟨rfl, rfl⟩
theorem encP1 : Statement .encP1 := ⟨rfl, rfl⟩
theorem encP2 : Statement .encP2 := ⟨rfl, rfl⟩
theorem encW0 : Statement .encW0 := ⟨rfl, rfl⟩
theorem encW1 : Statement .encW1 := ⟨rfl, rfl⟩
theorem decU0 : Statement .decU0 := ⟨rfl, rfl⟩
theorem decU1 : Statement .decU1 := ⟨rfl, rfl⟩
theorem decP1 : Statement .decP1 := ⟨rfl, rfl⟩
theorem decP2 : Statement .decP2 := ⟨rfl, rfl⟩
theorem rd (r : Reg) : Statement (.rd r) := by
  simp [Statement, tableBits, row, Sys2Proof.encode]
theorem wr (r : Reg) (v : Word) : Statement (.wr r v) := by
  simp [Statement, tableBits, row, Sys2Proof.encode]
theorem rdb (n : Word) : Statement (.rdb n) := by
  simp [Statement, tableBits, row, Sys2Proof.encode]
theorem wrb (n v : Word) : Statement (.wrb n v) := by
  simp [Statement, tableBits, row, Sys2Proof.encode]

end Sys2Proof.Laws.MatchesTable
end

