-- ==== Sys2Proof/Laws/Run.lean ====
section
/-! SUPPORT. Runs of several steps, taken apart into one step and the rest. -/

namespace Sys2Proof.Machine

/-- A run of one more step is the step and then the run. -/
theorem stepsFrom_succ {s t : State} (k : Nat) (h : step s = .next t) : stepsFrom (k + 1) s = stepsFrom k t := by
  have h' : Sys2Proof.core.step s = .next t := h
  show Host.Core.run Sys2Proof.core (k + 1) s = _
  simp only [Host.Core.run, h']

/-- Two runs one after the other, for any machine. -/
theorem run_append (M : Host.Core) {a b : Nat} {s t : M.State} (h : M.run a s = .next t) :
    M.run (a + b) s = M.run b t := by
  induction a generalizing s with
  | zero =>
    simp only [Host.Core.run, Host.Outcome.next.injEq] at h
    rw [h, Nat.zero_add]
  | succ a ih =>
    rw [show a + 1 + b = a + b + 1 by omega]
    simp only [Host.Core.run] at h ⊢
    cases hc : M.step s with
    | next u => rw [hc] at h; exact ih h
    | fault f => rw [hc] at h; cases h
    | refused r => rw [hc] at h; cases h

/-- Two runs one after the other. -/
theorem stepsFrom_append {a b : Nat} {s t : State} (h : stepsFrom a s = .next t) :
    stepsFrom (a + b) s = stepsFrom b t :=
  run_append Sys2Proof.core h

end Sys2Proof.Machine
end

