-- ==== Sys2Proof/Tests/Slice0.lean ====
section
/-! SUPPORT. The model's own tests: the spec's encodings decoded, ill-formed instructions refused, the spec's vectors
(95_test_vectors.md) one step at a time, and a witness for the hypotheses of every statement. Every expected value is
the spec's. -/

namespace Sys2Proof.Tests

open Sys2Proof.Machine

/-- The next state of an outcome, if it has one. -/
def nextOf : Result → Option State
  | .next s => some s
  | .fault _ | .refused _ => none

/-- The refusal of an outcome, if it is one. -/
def refusalOf : Result → Option Refusal
  | .refused r => some r
  | .next _ | .fault _ => none

/-- The instruction of a raw form, if it is one. -/
def decoded (e : Encoded) : Option Instr :=
  match decode e with
  | .ok i => some i
  | .error _ => none

/-- A block with two blocks, at a sequencer position: the operands of vector S1 but for IV, T and BLK. -/
def at2 (p : Phase) (x iv t b0 b1 : Word) : State :=
  { State.reset with
    klo := 1#32, khi := 2#32, iv := iv, len := 2#32, t := t, phase := p, idx := x,
    blk := (Memory.write ⟨0, []⟩ 0 b0).write 1 b1 }

/-- The start of vector S1. -/
def s1 : State := at2 .idle 0#32 0#32 0#32 0x11111111#32 0x22222222#32

/-- What a test looks at after a step: IV, the two blocks and T. -/
def seen (r : Result) : Option (Word × Word × Word × Word) :=
  (nextOf r).map fun s => (s.iv, s.blk.read 0, s.blk.read 1, s.t)

/-- The position after a step. -/
def position (r : Result) : Option (Phase × Word) := (nextOf r).map fun s => (s.phase, s.idx)

/-! ## Decoding: words written out bit by bit from 30_encoding.md, one for every constructor -/

-- R74: {DP, IP, KP, OP}; R77: 0x6 is `ENCODE k,i`, 0xB is `DECODE k,d`.
theorem test_decode_commands :
    decoded (.cmd 0b0110#4) = some (.encode true true false) ∧
    decoded (.cmd 0b1011#4) = some (.decode true false true) := by decide

-- R80: DIR 0 FWD, 1 BWD.
theorem test_decode_micro : decoded (.uop 0b0#1) = some .fwd ∧ decoded (.uop 0b1#1) = some .bwd := by decide

-- R81: the PHASE codes; R83 (e): codes 10 to 15 are unreachable.
theorem test_decode_steps :
    decoded (.step 0b0000#4) = some .idle ∧ decoded (.step 0b0001#4) = some .validate ∧
    decoded (.step 0b0010#4) = some .encP1 ∧ decoded (.step 0b0011#4) = some .encP2 ∧
    decoded (.step 0b0100#4) = some .encW0 ∧ decoded (.step 0b0101#4) = some .encW1 ∧
    decoded (.step 0b0110#4) = some .decU0 ∧ decoded (.step 0b0111#4) = some .decU1 ∧
    decoded (.step 0b1000#4) = some .decP1 ∧ decoded (.step 0b1001#4) = some .decP2 ∧
    decoded (.step 0b1010#4) = none ∧ decoded (.step 0b1111#4) = none := by decide

-- R71, R72, and the transactions of program P1, lines 2, 5, 9, 11; R83 (b): register number 6 is reserved.
theorem test_decode_host :
    decoded (.host 0b01#2 1#32 2#32) = some (.wr .khi 2#32) ∧
    decoded (.host 0b11#2 0#32 0x11111111#32) = some (.wrb 0#32 0x11111111#32) ∧
    decoded (.host 0b00#2 2#32 0#32) = some (.rd .iv) ∧
    decoded (.host 0b10#2 1#32 0#32) = some (.rdb 1#32) ∧
    decoded (.host 0b00#2 6#32 0#32) = none := by decide

theorem test_table_words :
    decodeTableWord 8 9 = some .decP2 ∧ decodeTableWord 8 0xE = some (.encode true true true) ∧
    decodeTableWord 2 3 = some (.wrb 0#32 0#32) ∧ decodeTableWord 1 1 = some .bwd ∧
    decodeTableWord 8 16 = none := by decide

/-! ## Well-formedness: one ill-formed term for each check -/

theorem test_illformed_refused :
    Instr.wf Config.default (.rd .cmd) = false ∧
    Instr.wf Config.default (.wr .status 0#32) = false ∧
    Instr.wf Config.default (.wr .cmd 0x10#32) = false ∧
    Instr.wf ⟨4⟩ (.rdb 4#32) = false ∧
    Instr.wf ⟨4⟩ (.wrb 4#32 0#32) = false := by decide

theorem test_wellformed_accepted :
    Instr.wf Config.default (.rd .status) = true ∧ Instr.wf Config.default (.wr .cmd 0xF#32) = true ∧
    Instr.wf ⟨4⟩ (.wrb 3#32 0#32) = true := by decide

/-! ## The combine primitive and PROD (V1, V2, V4) -/

theorem test_fwd_vectors :
    forwardCombine 3#32 0x11111110#32 0x33333333#32 = (0x22222220#32, 4#32) ∧
    forwardCombine 0xFFFFFFFF#32 0#32 0#32 = (0xFFFFFFFF#32, 0#32) := by decide

theorem test_bwd_vectors :
    backwardCombine 4#32 0x22222220#32 0x33333333#32 = (0x11111110#32, 3#32) ∧
    backwardCombine 0#32 0#32 0#32 = (0xFFFFFFFF#32, 0xFFFFFFFF#32) := by decide

theorem test_product_vectors :
    keyProduct 0x80000000#32 2#32 = 0#32 ∧ keyProduct 0xDEADBEEF#32 0xCAFEBABE#32 = 0x88CF5B62#32 := by decide

/-! ## The micro-operations by themselves, on the wiring of S1's steps -/

theorem test_fwd_alone :
    seen (exec .fwd (at2 .encP2 0#32 3#32 0#32 0x11111110#32 0x33333333#32)) =
      some (4#32, 0x22222220#32, 0x33333333#32, 0#32) := by decide

theorem test_bwd_alone :
    seen (exec .bwd (at2 .decP1 0#32 4#32 2#32 0x22222220#32 0x33333333#32)) =
      some (3#32, 0x11111110#32, 0x33333333#32, 2#32) := by decide

/-! ## The step kinds: the trace of S1 -/

-- 41_validator.md R101's worked example: CMDR = 0xA, LEN = 5 ends with InvalidIv.
theorem test_validate_missing_counter :
    (nextOf (exec .validate { s1 with phase := .validate, cmdr := 0xA#4, len := 5#32 })).map
      (fun s => (s.code, s.phase)) = some (2#3, .idle) := by decide

theorem test_validate_passes :
    position (exec .validate { s1 with phase := .validate, cmdr := 0xE#4 }) = some (.encP1, 0#32) ∧
    position (exec .validate { s1 with phase := .validate, cmdr := 0xF#4 }) = some (.decU0, 0#32) := by decide

theorem test_idle_stays : seen (step s1) = some (0#32, 0x11111111#32, 0x22222222#32, 0#32) := by decide

theorem test_encP1_at_0 :
    seen (exec .encP1 (at2 .encP1 0#32 0#32 0#32 0x11111111#32 0x22222222#32)) =
      some (1#32, 0x11111110#32, 0x22222222#32, 0#32) ∧
    position (exec .encP1 (at2 .encP1 0#32 0#32 0#32 0x11111111#32 0x22222222#32)) =
      some (.encP1, 1#32) := by decide

theorem test_encP1_at_1 :
    seen (exec .encP1 (at2 .encP1 1#32 1#32 0#32 0x11111110#32 0x22222222#32)) =
      some (2#32, 0x11111110#32, 0x33333333#32, 0#32) ∧
    position (exec .encP1 (at2 .encP1 1#32 1#32 0#32 0x11111110#32 0x22222222#32)) =
      some (.encP2, 1#32) := by decide

theorem test_encP2_at_1 :
    seen (exec .encP2 (at2 .encP2 1#32 2#32 0#32 0x11111110#32 0x33333333#32)) =
      some (3#32, 0x11111110#32, 0x33333333#32, 0#32) ∧
    position (exec .encP2 (at2 .encP2 1#32 2#32 0#32 0x11111110#32 0x33333333#32)) =
      some (.encP2, 0#32) := by decide

theorem test_encP2_at_0 :
    seen (exec .encP2 (at2 .encP2 0#32 3#32 0#32 0x11111110#32 0x33333333#32)) =
      some (4#32, 0x22222220#32, 0x33333333#32, 0#32) ∧
    position (exec .encP2 (at2 .encP2 0#32 3#32 0#32 0x11111110#32 0x33333333#32)) =
      some (.encW0, 0#32) := by decide

-- T starts from 0 whatever it held (7 here).
theorem test_encW0 :
    seen (exec .encW0 (at2 .encW0 0#32 4#32 7#32 0x22222220#32 0x33333333#32)) =
      some (6#32, 0x22222220#32, 0x33333333#32, 1#32) := by decide

theorem test_encW1 :
    seen (exec .encW1 (at2 .encW1 0#32 6#32 1#32 0x22222220#32 0x33333333#32)) =
      some (0x22222227#32, 0x22222220#32, 0x33333333#32, 2#32) ∧
    position (exec .encW1 (at2 .encW1 0#32 6#32 1#32 0x22222220#32 0x33333333#32)) =
      some (.idle, 0#32) := by decide

theorem test_decU0 :
    seen (exec .decU0 (at2 .decU0 0#32 0x22222227#32 2#32 0x22222220#32 0x33333333#32)) =
      some (7#32, 0x22222220#32, 0x33333333#32, 1#32) := by decide

theorem test_decU1 :
    seen (exec .decU1 (at2 .decU1 5#32 7#32 1#32 0x22222220#32 0x33333333#32)) =
      some (4#32, 0x22222220#32, 0x33333333#32, 2#32) ∧
    position (exec .decU1 (at2 .decU1 5#32 7#32 1#32 0x22222220#32 0x33333333#32)) =
      some (.decP1, 0#32) := by decide

theorem test_decP1_at_0 :
    seen (exec .decP1 (at2 .decP1 0#32 4#32 2#32 0x22222220#32 0x33333333#32)) =
      some (3#32, 0x11111110#32, 0x33333333#32, 2#32) := by decide

theorem test_decP1_at_1 :
    seen (exec .decP1 (at2 .decP1 1#32 3#32 2#32 0x11111110#32 0x33333333#32)) =
      some (2#32, 0x11111110#32, 0x33333333#32, 2#32) ∧
    position (exec .decP1 (at2 .decP1 1#32 3#32 2#32 0x11111110#32 0x33333333#32)) =
      some (.decP2, 1#32) := by decide

theorem test_decP2_at_1 :
    seen (exec .decP2 (at2 .decP2 1#32 2#32 2#32 0x11111110#32 0x33333333#32)) =
      some (1#32, 0x11111110#32, 0x22222222#32, 2#32) := by decide

theorem test_decP2_at_0 :
    seen (exec .decP2 (at2 .decP2 0#32 1#32 2#32 0x11111110#32 0x22222222#32)) =
      some (0#32, 0x11111111#32, 0x22222222#32, 2#32) ∧
    position (exec .decP2 (at2 .decP2 0#32 1#32 2#32 0x11111110#32 0x22222222#32)) =
      some (.idle, 0#32) := by decide

/-! ## Whole commands -/

theorem test_encode_s1 :
    seen (exec (.encode true true true) s1) = some (0x22222227#32, 0x22222220#32, 0x33333333#32, 2#32) := by decide

-- V5, word 0x2 with LEN = 0: InvalidIv, not InvalidLength.
theorem test_encode_priority :
    (nextOf (exec (.encode true false false) { s1 with len := 0#32 })).map (fun s => (s.code, s.iv)) =
      some (2#3, 0#32) := by decide

-- V11: DECODE of data that was never encoded.
theorem test_decode_v11 :
    seen (exec (.decode true true true) s1) = some (0x1111110E#32, 0x3333332D#32, 0x0000001D#32, 2#32) := by decide

-- V16 (b): LEN = 1 leaves BLK[1] alone.
theorem test_decode_wrong_length :
    seen (exec (.decode true true true)
      { at2 .idle 0#32 0x22222227#32 2#32 0x22222220#32 0x33333333#32 with len := 1#32 }) =
      some (2#32, 0x22222222#32, 0x33333333#32, 2#32) := by decide

/-! ## The host's transactions -/

theorem test_rd_status_busy :
    (nextOf (exec (.rd .status) { s1 with phase := .encP1, code := 4#3 })).map (fun s => s.replies) =
      some [.status 0xC#4] := by decide

theorem test_rd_iv :
    (nextOf (exec (.rd .iv) { s1 with iv := 0x22222227#32 })).map (fun s => s.replies) =
      some [.word 0x22222227#32] := by decide

theorem test_wr_khi : (nextOf (exec (.wr .khi 9#32) s1)).map (fun s => (s.klo, s.khi)) = some (1#32, 9#32) := by decide

theorem test_wr_cmd :
    (nextOf (exec (.wr .cmd 0xE#32) s1)).map (fun s => (s.cmdr, s.phase, s.statusWord)) =
      some (0xE#4, .validate, 0x8#4) := by decide

theorem test_rdb : (nextOf (exec (.rdb 1#32) s1)).map (fun s => s.replies) = some [.word 0x22222222#32] := by decide

-- Writing what an unlisted word reads as keeps the form.
theorem test_wrb :
    seen (exec (.wrb 1#32 0xCAFEF00D#32) s1) = some (0#32, 0x11111111#32, 0xCAFEF00D#32, 0#32) ∧
    (nextOf (exec (.wrb 1#32 0#32) s1)).map (fun s => s.blk) = some ⟨0, [(0, 0x11111111#32)]⟩ := by decide

/-! ## Refusals -/

theorem test_refusals :
    refusalOf (exec (.wr .iv 0#32) { s1 with phase := .encP1 }) = some .hostAccessWhileBusy ∧
    refusalOf (exec (.rd .cmd) s1) = some .readOfWriteOnly ∧
    refusalOf (exec (.wr .status 0#32) s1) = some .writeOfReadOnly ∧
    refusalOf (exec (.wr .cmd 0xE#32) { s1 with cfg := ⟨1⟩ }) = some .lengthAboveStore ∧
    refusalOf (exec (.rdb 4#32) { s1 with cfg := ⟨4⟩ }) = some (.indexAboveStore 4#32) ∧
    refusalOf (exec .fwd s1) = some .noOperandsWired ∧
    refusalOf (step { s1 with host := [.transaction 0b00#2 6#32 0#32] }) =
      some (.undecodable (.reservedRegister 6#32)) := by decide

/-! ## Steps -/

theorem test_step_runs_the_wait :
    (nextOf (step { at2 .encP1 0#32 0#32 0#32 5#32 6#32 with host := [.wait] })).map (fun s => (s.iv, s.host)) =
      some (1#32, [.wait]) := by decide

theorem test_first_step_after_reset :
    position (step (State.reset.withFetchWord 8 2)) = some (.encP1, 1#32) ∧
    position (step (State.reset.withFetchWord 2 1)) = some (.idle, 0#32) := by decide

/-! ## Calls -/

/-- The call of program P1 and vector S1. -/
def p1 : CallArgs := ⟨some (1#32, 2#32), some 0#32, some [0x11111111#32, 0x22222222#32], 2#32⟩

/-- What a test looks at after a call: the status and the caller's counter and array. -/
def handed (r : CallOutcome) : Option (Option Status × Option Word × Option (List Word)) :=
  match r with
  | .next c => some (c.status, c.args.iv, c.args.blocks)
  | .fault _ | .refused _ => none

-- P1: the whole call, from reset.
theorem test_encode_call :
    handed (encodeCall p1 State.reset) =
      some (some .success, some 0x22222227#32, some [0x22222220#32, 0x33333333#32]) := by decide

-- S1, the way back, with a third value in the array that the length leaves out.
theorem test_decode_call :
    handed (decodeCall ⟨some (1#32, 2#32), some 0x22222227#32, some [0x22222220#32, 0x33333333#32, 7#32], 2#32⟩
      State.reset) = some (some .success, some 0#32, some [0x11111111#32, 0x22222222#32, 7#32]) := by decide

-- S2: a null key returns InvalidKey "without altering `iv` or `blocks`".
theorem test_call_null_key :
    handed (encodeCall { p1 with key := none } State.reset) =
      some (some .invalidKey, some 0#32, some [0x11111111#32, 0x22222222#32]) := by decide

/-! ## Witnesses: states and operands that meet the hypotheses of the statements, clause by clause -/

/-- Pass steps at the two ends of two blocks, in all four pass phases
(FwdOnEveryWiring, BwdOnPassWiring, BwdOnOtherWirings, EncP1Step, EncP2Step, DecP1Step, DecP2Step). -/
theorem witness_pass_positions :
    ∀ p ∈ [Phase.encP1, .encP2, .decP1, .decP2],
      (at2 p 0#32 0#32 0#32 5#32 6#32).phase = p ∧ (at2 p 1#32 0#32 0#32 5#32 6#32).phase = p ∧
      (at2 p 0#32 0#32 0#32 5#32 6#32).idx.toNat < (at2 p 0#32 0#32 0#32 5#32 6#32).len.toNat ∧
      (at2 p 1#32 0#32 0#32 5#32 6#32).idx.toNat < (at2 p 1#32 0#32 0#32 5#32 6#32).len.toNat ∧
      (at2 p 1#32 0#32 0#32 5#32 6#32).len.toNat ≤ (at2 p 1#32 0#32 0#32 5#32 6#32).cfg.maxLen := by decide

/-- One block in a pass: index 0 is both ends. -/
theorem witness_one_block :
    ({ at2 .encP1 0#32 0#32 0#32 5#32 6#32 with len := 1#32 } : State).atLowEnd ∧
    ({ at2 .encP1 0#32 0#32 0#32 5#32 6#32 with len := 1#32 } : State).atHighEnd := by decide

/-- The wrap and unwrap steps, with T = 1 and without (FwdOnEveryWiring, BwdOnOtherWirings, EncW1Step, DecU0Step,
DecU1Step, WrapAndUnwrapFoldTheSame). -/
theorem witness_wrap_positions :
    ∀ p ∈ [Phase.encW0, .encW1, .decU0, .decU1],
      (at2 p 0#32 0#32 1#32 5#32 6#32).phase = p ∧ 0 < (at2 p 0#32 0#32 1#32 5#32 6#32).cfg.maxLen ∧
      (at2 p 0#32 0#32 1#32 5#32 6#32).t = 1#32 ∧ (at2 p 0#32 0#32 1#32 5#32 6#32).host = [] := by decide

/-- CombineFlavoursInvert: both premises, on rows of V1 and V2. -/
theorem witness_combine :
    forwardCombine 3#32 0x11111110#32 0x33333333#32 = (0x22222220#32, 4#32) ∧
    backwardCombine 4#32 0x22222220#32 0x33333333#32 = (0x11111110#32, 3#32) := by decide

/-- CombiningStepIsMicroOpThenMove: in each of the eight phases the micro-operation runs. -/
theorem witness_micro_runs :
    (∀ p ∈ [Phase.encP1, .encP2, .encW0, .encW1, .decU0, .decU1],
      (nextOf (exec .fwd (at2 p 0#32 0#32 0#32 5#32 6#32))).isSome = true) ∧
    ∀ p ∈ [Phase.decP1, .decP2], (nextOf (exec .bwd (at2 p 0#32 0#32 0#32 5#32 6#32))).isSome = true := by decide

/-- MicroOpWithoutOperandsRefused, IdleStays, RdAnswers, WrStores, RdbAnswers, WrbStores, ReadBackReturnsResults: an
idle machine with nothing to come, whose length and last index fit the store. -/
theorem witness_idle_host :
    s1.phase = .idle ∧ s1.host = [] ∧ s1.len.toNat ≤ s1.cfg.maxLen ∧ (0xFFFFFFFE#32).toNat < s1.cfg.maxLen ∧
    (2#32).toNat ≤ s1.cfg.maxLen ∧ (at2 .validate 0#32 0#32 0#32 5#32 6#32).phase = .validate := by decide

/-- BusyHostRefused: a busy machine. -/
theorem witness_busy : (at2 .encP1 0#32 0#32 0#32 5#32 6#32).phase ≠ .idle ∧ Reg.klo ≠ .status := by decide

/-- BeyondStoreRefused: a length and an index just above a store of one word. -/
theorem witness_beyond_store :
    ({ s1 with cfg := ⟨1⟩ } : State).phase = .idle ∧
    ({ s1 with cfg := ⟨1⟩ } : State).cfg.maxLen < ({ s1 with cfg := ⟨1⟩ } : State).len.toNat ∧
    ({ s1 with cfg := ⟨1⟩ } : State).cfg.maxLen ≤ (1#32).toNat := by decide

/-- RejectedCommandChangesStatusOnly: each missing operand, and the length 0 with all present. -/
theorem witness_rejected :
    s1.phase = .idle ∧ s1.len.toNat ≤ s1.cfg.maxLen ∧ (false && true && true) = false ∧
    (true && false && true) = false ∧ (true && true && false) = false ∧
    ({ s1 with len := 0#32 } : State).len = 0#32 ∧
    ({ s1 with len := 0#32 } : State).len.toNat ≤ ({ s1 with len := 0#32 } : State).cfg.maxLen := by decide

/-- EncodeClosedForm, DecodeClosedForm, EncodeThenDecodeRestores, DecodeThenEncodeRestores,
SequencerEqualsWholeEncode, SequencerEqualsWholeDecode and EncodePromisesNoDifference (b). -/
theorem witness_command :
    s1.phase = .idle ∧ s1.host = [] ∧ s1.len ≠ 0#32 ∧ s1.len.toNat ≤ s1.cfg.maxLen := by decide

/-- CallRunsItsCommand, CallReturnsStatusAndResults, EncodeCallThenDecodeCall: a call with every operand, one with a
null operand and one of length 0, so that each branch is met. -/
theorem witness_calls :
    s1.phase = .idle ∧ s1.host = [] ∧ p1.length ≠ 0#32 ∧ p1.length.toNat ≤ s1.cfg.maxLen ∧
    p1.length.toNat ≤ [0x11111111#32, 0x22222222#32].length ∧
    p1.blocks = some [0x11111111#32, 0x22222222#32] ∧
    firstFailure p1.key.isSome p1.iv.isSome p1.blocks.isSome p1.length = none ∧
    firstFailure ({ p1 with iv := none } : CallArgs).key.isSome ({ p1 with iv := none } : CallArgs).iv.isSome
      ({ p1 with iv := none } : CallArgs).blocks.isSome p1.length = some .invalidIv ∧
    firstFailure p1.key.isSome p1.iv.isSome p1.blocks.isSome 0#32 = some .invalidLength := by decide

/-- EncodeSingleBlock, DecodeSingleBlock and EncodePromisesNoDifference (a): the key of V7. -/
theorem witness_single_block :
    ({ s1 with klo := 0#32, khi := 1#32, len := 1#32 } : State).phase = .idle ∧
    ({ s1 with klo := 0#32, khi := 1#32, len := 1#32 } : State).len = 1#32 ∧
    0 < s1.cfg.maxLen ∧ ({ s1 with klo := 0#32, khi := 1#32, len := 1#32 } : State).iv = 0#32 := by decide

/-- EqualInputsEqualResults: two states that agree on the inputs and differ in T, IDX, CODE and a word above LEN. -/
theorem witness_equal_inputs :
    s1.phase = .idle ∧ s1.len.toNat ≤ s1.cfg.maxLen ∧
    ({ s1 with t := 9#32, idx := 5#32, code := 7#3, blk := s1.blk.write 2 8#32 } : State).len = s1.len ∧
    (∀ a, a < 2 → s1.blk.read a = (s1.blk.write 2 8#32).read a) ∧ s1.blk.read 2 ≠ (s1.blk.write 2 8#32).read 2 := by
  decide

/-- EncodePassPath and DecodePassPath, at the first step, at the turn and at the end. -/
theorem witness_pass_path :
    ∀ p ∈ [Phase.encP1, .decP1],
      (at2 p 0#32 0#32 0#32 5#32 6#32).host = [] ∧ (at2 p 0#32 0#32 0#32 5#32 6#32).phase = p ∧
      (at2 p 0#32 0#32 0#32 5#32 6#32).idx = 0#32 ∧ (at2 p 0#32 0#32 0#32 5#32 6#32).len ≠ 0#32 ∧
      (at2 p 0#32 0#32 0#32 5#32 6#32).len.toNat ≤ (at2 p 0#32 0#32 0#32 5#32 6#32).cfg.maxLen ∧
      ∀ k ∈ [0, 2, 4], k ≤ 2 * (at2 p 0#32 0#32 0#32 5#32 6#32).len.toNat := by decide

/-- EveryCommandCompletes, InvariantExcludesFaults, StepKeepsInvariant, WordsAboveLengthUntouched: the invariant holds
idle, at VALIDATE, and in the middle of either command. -/
theorem witness_invariant_idle : s1.Inv := by decide

theorem witness_invariant_validate : ({ s1 with phase := .validate, cmdr := 0x3#4 } : State).Inv := by decide

/-- ENCODE of S1 before the step ENC_P2 at 1. -/
def midEncode : State := { at2 .encP2 1#32 2#32 0#32 0x11111110#32 0x33333333#32 with cmdr := 0xE#4 }

theorem witness_invariant_encode : midEncode.Inv := by decide

theorem witness_encode_busy : midEncode.host = [] ∧ midEncode.phase ≠ .idle := by decide

/-- DECODE of S1 before the step DEC_U1. -/
def midDecode : State := { at2 .decU1 0#32 7#32 1#32 0x22222220#32 0x33333333#32 with cmdr := 0xF#4 }

theorem witness_invariant_decode : midDecode.Inv := by decide

/-- StepKeepsInvariant, CodeChangesOnlyAtCompletion, WordsAboveLengthUntouched: steps that answer a next state. -/
theorem witness_step_answers :
    midEncode.host.head? ≠ some .reset ∧ (nextOf (step midEncode)).isSome = true ∧
    (nextOf (step { s1 with host := [.command 0xF#4] })).isSome = true ∧
    (nextOf (exec (.encode true true true) s1)).isSome = true := by decide

/-- CoreWritesOnlyItsOwn: a core instruction that answers a next state, for each clause. -/
theorem witness_core_answers :
    isCoreInstr .idle = true ∧ isCoreInstr .decP2 = true ∧
    (nextOf (exec .idle s1)).isSome = true ∧
    (nextOf (exec .decP2 (at2 .decP2 1#32 2#32 2#32 5#32 6#32))).isSome = true ∧
    (nextOf (exec .fwd (at2 .encW0 0#32 2#32 2#32 5#32 6#32))).isSome = true ∧
    (nextOf (exec .validate { s1 with phase := .validate, cmdr := 0xE#4 })).isSome = true ∧
    firstFailure (kpBit 0xE#4) (ipBit 0xE#4) (dpBit 0xE#4) s1.len = none := by decide

/-- StepRunsDecodedInstruction and ResetEventLeavesIdle: an input whose head is each kind of event, and a form that is
an instruction. -/
theorem witness_events :
    ({ s1 with host := [.coreTurn] } : State).host = [.coreTurn] ∧
    ({ s1 with host := [.transaction 0b00#2 2#32 0#32] } : State).host = [.transaction 0b00#2 2#32 0#32] ∧
    decoded (.host 0b00#2 2#32 0#32) = some (.rd .iv) ∧ decoded (.host 0b00#2 7#32 0#32) = none ∧
    ({ s1 with host := [.command 0xE#4] } : State).host = [.command 0xE#4] ∧
    ({ s1 with host := [.wait] } : State).phase = .idle ∧
    ({ at2 .encP1 0#32 0#32 0#32 5#32 6#32 with host := [.wait] } : State).phase ≠ .idle ∧
    ({ s1 with host := [.reset] } : State).host = [.reset] := by decide

end Sys2Proof.Tests
end

/-! The family 00_scope.md: what a host asks beyond the block store is refused (R12; 93_implementation_defined.md
U4). The two guards of U4 say so once; each transaction and each command inherits it from its guard. -/

namespace Sys2Proof.Machine

theorem whenInStore_of_beyond {s : State} {n : Word} (h : s.cfg.maxLen ≤ n.toNat) (r : Result) :
    whenInStore s n r = .refused (.indexAboveStore n) := if_neg (Nat.not_lt.mpr h)

theorem whenLengthFits_of_above {s : State} (h : s.cfg.maxLen < s.len.toNat) (r : Result) :
    whenLengthFits s r = .refused .lengthAboveStore := if_neg (Nat.not_le.mpr h)

/-- Neither the transform nor the present bits of the word matter: U4 comes before VALIDATE (assumption 13). -/
theorem runCommand_of_lengthAbove {s : State} (hi : s.phase = .idle) (h : s.cfg.maxLen < s.len.toNat)
    (f : Word → Word → Nat → Chain → Chain) (w : BitVec 4) : runCommand f w s = .refused .lengthAboveStore :=
  (whenIdle_of_idle hi _).trans (whenLengthFits_of_above h _)

theorem execWr_cmd_of_lengthAbove {s : State} (hi : s.phase = .idle) (h : s.cfg.maxLen < s.len.toNat) (v : Word) :
    execWr .cmd v s = .refused .lengthAboveStore :=
  (whenIdle_of_idle hi _).trans (whenLengthFits_of_above h _)

theorem execRdb_of_beyond {s : State} (hi : s.phase = .idle) {n : Word} (h : s.cfg.maxLen ≤ n.toNat) :
    execRdb n s = .refused (.indexAboveStore n) :=
  (whenIdle_of_idle hi _).trans (whenInStore_of_beyond h _)

theorem execWrb_of_beyond {s : State} (hi : s.phase = .idle) {n : Word} (h : s.cfg.maxLen ≤ n.toNat) (v : Word) :
    execWrb n v s = .refused (.indexAboveStore n) :=
  (whenIdle_of_idle hi _).trans (whenInStore_of_beyond h _)

/-- Settles O28, from the two guards of U4: each instruction's arm of `exec` is, by definition, one of the functions
above. -/
theorem beyondStoreRefused : Obligations.BeyondStoreRefused := by
  intro s hi
  constructor
  · intro hlen
    exact ⟨execWr_cmd_of_lengthAbove hi hlen, fun _ _ _ => runCommand_of_lengthAbove hi hlen _ _,
      fun _ _ _ => runCommand_of_lengthAbove hi hlen _ _⟩
  · intro n hn
    exact ⟨execRdb_of_beyond hi hn, execWrb_of_beyond hi hn⟩

end Sys2Proof.Machine

/-! The family 10_state.md, the layer of facts: what one step of the core may do (R37), stated once as the relations
`StepMove` and `CoreMove`, and what a host transaction may do. Every proof about steps below goes through these. -/

namespace Sys2Proof.Machine

/-! ### The two kinds of writes a micro-operation makes (30_encoding.md R81) -/

/-- A pass micro-operation wrote the word at IDX, inside the store, and the counter IV. -/
def PassWrite (s u : State) : Prop :=
  s.idx.toNat < s.cfg.maxLen ∧ ∃ r c, u = (s.setWord s.idx.toNat r).setIv c

/-- A wrap or unwrap micro-operation folded something into IV and left its counter `v` in T. -/
def FoldWrite (s : State) (v : Word) (u : State) : Prop := ∃ r, u = (s.setIv r).setT v

theorem microOp_pass {d : Dir} {b : SecondSource} {s u : State} (h : microOp d ⟨.iv, .block, b⟩ s = .ok u) :
    PassWrite s u := by
  obtain ⟨a, b, ha, -, rfl⟩ := microOp_ok h
  have hx : s.idx.toNat < s.cfg.maxLen := by
    by_contra hge
    simp [State.firstOperand, State.coreRead, hge] at ha
  exact ⟨hx, _, _, rfl⟩

/-- A forward fold counts one up from what the wiring gives it. -/
theorem microOp_fold {d : Dir} {c : CounterSource} {b : SecondSource} {s u : State} (hc : c ≠ .iv)
    (h : microOp d ⟨c, .iv, b⟩ s = .ok u) :
    ∃ v, FoldWrite s v u ∧ (d = .fwd → v = s.counterOperand c + 1#32) := by
  obtain ⟨a, b, -, -, rfl⟩ := microOp_ok h
  refine ⟨(combine d (s.counterOperand c) a b).2, ?_, fun hd => by subst hd; rfl⟩
  cases c with
  | iv => exact absurd rfl hc
  | t => exact ⟨_, rfl⟩
  | tFromZero => exact ⟨_, rfl⟩

theorem stepWith_pass {d : Dir} {b : SecondSource} {move : State → State} {s t : State}
    (h : stepWith d ⟨.iv, .block, b⟩ move s = .next t) : ∃ u, PassWrite s u ∧ t = move u := by
  obtain ⟨u, hu, rfl⟩ := stepWith_next h
  exact ⟨u, microOp_pass hu, rfl⟩

theorem stepWith_fold {c : CounterSource} {b : SecondSource} {move : State → State} {s t : State} (hc : c ≠ .iv)
    (h : stepWith .fwd ⟨c, .iv, b⟩ move s = .next t) :
    ∃ u, FoldWrite s (s.counterOperand c + 1#32) u ∧ t = move u := by
  obtain ⟨u, hu, rfl⟩ := stepWith_next h
  obtain ⟨v, hw, hv⟩ := microOp_fold hc hu
  exact ⟨u, hv rfl ▸ hw, rfl⟩

/-- A micro-operation by itself makes one of the two kinds of writes (assumption 12). -/
theorem microAlone_next {d : Dir} {s t : State} (h : microAlone d s = .next t) :
    PassWrite s t ∨ ∃ v, FoldWrite s v t := by
  unfold microAlone at h
  split at h
  case h_2 => cases h
  case h_1 w hw =>
    obtain ⟨u, hu, rfl⟩ := stepWith_next h
    cases hp : s.phase <;> simp only [hp, Phase.wiring, reduceCtorEq, Option.some.injEq] at hw <;> subst hw
    case encP1 | encP2 | decP1 | decP2 => exact .inl (microOp_pass hu)
    case encW0 | encW1 | decU0 | decU1 =>
      obtain ⟨v, hw, -⟩ := microOp_fold (by decide) hu
      exact .inr ⟨v, hw⟩

/-! ### What a core instruction can do -/

/-- Everything the step kind of a phase that answers a next state does: its writes, then the sequencer's move. -/
inductive StepMove (s : State) : Phase → State → Prop
  | idle : StepMove s .idle s
  | reject {x : Status} (hx : firstFailure (kpBit s.cmdr) (ipBit s.cmdr) (dpBit s.cmdr) s.len = some x) :
      StepMove s .validate (s.raise x)
  | startDecode (hok : firstFailure (kpBit s.cmdr) (ipBit s.cmdr) (dpBit s.cmdr) s.len = none)
      (hop : opBit s.cmdr = true) : StepMove s .validate (s.setPhase .decU0)
  | startEncode (hok : firstFailure (kpBit s.cmdr) (ipBit s.cmdr) (dpBit s.cmdr) s.len = none)
      (hop : opBit s.cmdr = false) : StepMove s .validate ((s.setPhase .encP1).setIdx 0#32)
  | encP1 {u : State} (hu : PassWrite s u) : StepMove s .encP1 (u.moveUp .encP1 .encP2)
  | encP2 {u : State} (hu : PassWrite s u) : StepMove s .encP2 (u.moveDown .encP2 fun v => v.setPhase .encW0)
  | encW0 {u : State} (hu : FoldWrite s 1#32 u) : StepMove s .encW0 (u.setPhase .encW1)
  | encW1 {u : State} (hu : FoldWrite s (s.t + 1#32) u) : StepMove s .encW1 u.succeed
  | decU0 {u : State} (hu : FoldWrite s 1#32 u) : StepMove s .decU0 (u.setPhase .decU1)
  | decU1 {u : State} (hu : FoldWrite s (s.t + 1#32) u) : StepMove s .decU1 ((u.setPhase .decP1).setIdx 0#32)
  | decP1 {u : State} (hu : PassWrite s u) : StepMove s .decP1 (u.moveUp .decP1 .decP2)
  | decP2 {u : State} (hu : PassWrite s u) : StepMove s .decP2 (u.moveDown .decP2 State.succeed)

theorem execValidate_next {s t : State} (h : execValidate s = .next t) : StepMove s .validate t := by
  unfold execValidate at h
  split at h
  case h_1 x hx => cases h; exact .reject hx
  case h_2 hok =>
    split at h
    case isTrue hop => cases h; exact .startDecode hok hop
    case isFalse hop => cases h; exact .startEncode hok (Bool.eq_false_iff.mpr hop)

theorem stepMove_of_exec {p : Phase} {s t : State} (h : exec p.stepInstr s = .next t) : StepMove s p t := by
  cases p with
  | idle => cases h; exact .idle
  | validate => exact execValidate_next h
  | encP1 => obtain ⟨u, hu, rfl⟩ := stepWith_pass h; exact .encP1 hu
  | encP2 => obtain ⟨u, hu, rfl⟩ := stepWith_pass h; exact .encP2 hu
  | decP1 => obtain ⟨u, hu, rfl⟩ := stepWith_pass h; exact .decP1 hu
  | decP2 => obtain ⟨u, hu, rfl⟩ := stepWith_pass h; exact .decP2 hu
  | encW0 => obtain ⟨u, hu, rfl⟩ := stepWith_fold (by decide) (show execEncW0 s = _ from h); exact .encW0 hu
  | encW1 => obtain ⟨u, hu, rfl⟩ := stepWith_fold (by decide) (show execEncW1 s = _ from h); exact .encW1 hu
  | decU0 => obtain ⟨u, hu, rfl⟩ := stepWith_fold (by decide) (show execDecU0 s = _ from h); exact .decU0 hu
  | decU1 => obtain ⟨u, hu, rfl⟩ := stepWith_fold (by decide) (show execDecU1 s = _ from h); exact .decU1 hu

/-- Everything a core instruction that answers a next state does: the step of a phase, or a micro-operation's writes
by themselves. -/
inductive CoreMove (s : State) : Instr → State → Prop
  | step {p : Phase} {t : State} (h : StepMove s p t) : CoreMove s p.stepInstr t
  | microPass {i : Instr} {u : State} (hi : i = .fwd ∨ i = .bwd) (hu : PassWrite s u) : CoreMove s i u
  | microFold {i : Instr} {v : Word} {u : State} (hi : i = .fwd ∨ i = .bwd) (hu : FoldWrite s v u) : CoreMove s i u

theorem microAlone_coreMove {d : Dir} {i : Instr} (hi : i = .fwd ∨ i = .bwd) {s t : State}
    (h : microAlone d s = .next t) : CoreMove s i t := by
  rcases microAlone_next h with hu | ⟨v, hu⟩
  · exact .microPass hi hu
  · exact .microFold hi hu

/-- A core instruction is a micro-operation or the step of a phase. -/
theorem isCoreInstr_cases {i : Instr} (hi : isCoreInstr i = true) :
    (i = .fwd ∨ i = .bwd) ∨ ∃ p : Phase, i = p.stepInstr := by
  cases i with
  | encode | decode | rd | wr | rdb | wrb => cases hi
  | fwd => exact .inl (.inl rfl)
  | bwd => exact .inl (.inr rfl)
  | idle => exact .inr ⟨.idle, rfl⟩
  | validate => exact .inr ⟨.validate, rfl⟩
  | encP1 => exact .inr ⟨.encP1, rfl⟩
  | encP2 => exact .inr ⟨.encP2, rfl⟩
  | encW0 => exact .inr ⟨.encW0, rfl⟩
  | encW1 => exact .inr ⟨.encW1, rfl⟩
  | decU0 => exact .inr ⟨.decU0, rfl⟩
  | decU1 => exact .inr ⟨.decU1, rfl⟩
  | decP1 => exact .inr ⟨.decP1, rfl⟩
  | decP2 => exact .inr ⟨.decP2, rfl⟩

theorem coreMove_of_exec {i : Instr} {s t : State} (hi : isCoreInstr i = true) (h : exec i s = .next t) :
    CoreMove s i t := by
  rcases isCoreInstr_cases hi with hm | ⟨p, rfl⟩
  · rcases hm with rfl | rfl
    · exact microAlone_coreMove (.inl rfl) h
    · exact microAlone_coreMove (.inr rfl) h
  · exact .step (stepMove_of_exec h)

/-! ### The sequencer's moves -/

theorem moveUp_eq (this after : Phase) (s : State) :
    s.moveUp this after = (s.setPhase (if s.atHighEnd then after else this)).setIdx
      (if s.atHighEnd then s.idx else s.idx + 1#32) := by
  unfold State.moveUp
  split <;> rfl

theorem moveDown_setPhase (this after : Phase) (s : State) :
    s.moveDown this (fun v => v.setPhase after) = (s.setPhase (if s.atLowEnd then after else this)).setIdx
      (if s.atLowEnd then s.idx else s.idx - 1#32) := by
  unfold State.moveDown
  split <;> rfl

/-- DEC_P2's move ends the command at index 0 and else goes one down. -/
theorem moveDown_succeed (this : Phase) (s : State) :
    s.idx = 0#32 ∧ s.moveDown this State.succeed = s.succeed ∨
      s.idx ≠ 0#32 ∧ s.moveDown this State.succeed = (s.setPhase this).setIdx (s.idx - 1#32) := by
  unfold State.moveDown
  split
  case isTrue h0 => exact .inl ⟨h0, rfl⟩
  case isFalse h0 => exact .inr ⟨h0, rfl⟩

/-- One up from an index below LEN that is not the high end is below LEN. -/
theorem moveUp_idx_lt {this after : Phase} {s : State} (h : s.idx.toNat < s.len.toNat) :
    (s.moveUp this after).idx.toNat < s.len.toNat := by
  rw [moveUp_eq, State.setIdx_idx]
  split
  case isTrue => exact h
  case isFalse hne =>
    have hlen : s.len.toNat < 4294967296 := s.len.isLt
    rw [BitVec.toNat_add_of_lt (by simp; omega)]
    simp only [State.atHighEnd] at hne
    simp; omega

/-- One down from an index other than 0 stays below it. -/
theorem sub_one_toNat_lt {x : Word} (h : x ≠ 0#32) : (x - 1#32).toNat < x.toNat := by
  bv_omega

end Sys2Proof.Machine

/-! ### R37: which fields a core instruction writes -/

namespace Sys2Proof.Machine

/-- The writes of each core instruction: none, one word of BLK at IDX with IV, or IV with T. -/
def DataWrite (s : State) (i : Instr) (u : State) : Prop :=
  i ∈ [.idle, .validate] ∧ u = s ∨
    i ∈ [.encP1, .encP2, .decP1, .decP2, .fwd, .bwd] ∧ PassWrite s u ∨
    i ∈ [.encW0, .encW1, .decU0, .decU1, .fwd, .bwd] ∧ ∃ v, FoldWrite s v u

/-- The sequencer's move after the writes touches CODE, PHASE and IDX only. -/
theorem StepMove.data {p : Phase} {s t : State} (h : StepMove s p t) :
    ∃ u, DataWrite s p.stepInstr u ∧ ∃ c q x, t = { u with code := c, phase := q, idx := x } := by
  cases h with
  | idle => exact ⟨s, .inl ⟨by decide, rfl⟩, _, _, _, rfl⟩
  | reject => exact ⟨s, .inl ⟨by decide, rfl⟩, _, _, _, rfl⟩
  | startDecode => exact ⟨s, .inl ⟨by decide, rfl⟩, _, _, _, rfl⟩
  | startEncode => exact ⟨s, .inl ⟨by decide, rfl⟩, _, _, _, rfl⟩
  | encP1 hu => exact ⟨_, .inr (.inl ⟨by decide, hu⟩), _, _, _, moveUp_eq ..⟩
  | decP1 hu => exact ⟨_, .inr (.inl ⟨by decide, hu⟩), _, _, _, moveUp_eq ..⟩
  | encP2 hu => exact ⟨_, .inr (.inl ⟨by decide, hu⟩), _, _, _, moveDown_setPhase ..⟩
  | @decP2 u hu =>
    refine ⟨u, .inr (.inl ⟨by decide, hu⟩), ?_⟩
    rcases moveDown_succeed .decP2 u with ⟨-, hm⟩ | ⟨-, hm⟩
    · exact ⟨_, _, _, hm⟩
    · exact ⟨_, _, _, hm⟩
  | encW0 hu => exact ⟨_, .inr (.inr ⟨by decide, _, hu⟩), _, _, _, rfl⟩
  | encW1 hu => exact ⟨_, .inr (.inr ⟨by decide, _, hu⟩), _, _, _, rfl⟩
  | decU0 hu => exact ⟨_, .inr (.inr ⟨by decide, _, hu⟩), _, _, _, rfl⟩
  | decU1 hu => exact ⟨_, .inr (.inr ⟨by decide, _, hu⟩), _, _, _, rfl⟩

theorem CoreMove.data {i : Instr} {s t : State} (h : CoreMove s i t) :
    ∃ u, DataWrite s i u ∧ ∃ c q x, t = { u with code := c, phase := q, idx := x } := by
  cases h with
  | step h => exact h.data
  | microPass hi hu => exact ⟨t, .inr (.inl ⟨by rcases hi with rfl | rfl <;> decide, hu⟩), _, _, _, rfl⟩
  | microFold hi hu => exact ⟨t, .inr (.inr ⟨by rcases hi with rfl | rfl <;> decide, _, hu⟩), _, _, _, rfl⟩

/-- The key, LEN, CMDR and the model's own fields are no core instruction's to write. -/
theorem CoreMove.keeps {i : Instr} {s t : State} (h : CoreMove s i t) :
    t.klo = s.klo ∧ t.khi = s.khi ∧ t.len = s.len ∧ t.cmdr = s.cmdr ∧
      t.cfg = s.cfg ∧ t.host = s.host ∧ t.replies = s.replies := by
  obtain ⟨u, ⟨-, rfl⟩ | ⟨-, -, r, c, rfl⟩ | ⟨-, v, r, rfl⟩, -, -, -, rfl⟩ := h.data
  · simp
  · simp
  · simp

theorem CoreMove.iv {i : Instr} {s t : State} (h : CoreMove s i t) (hi : i = .idle ∨ i = .validate) :
    t.iv = s.iv := by
  obtain ⟨u, ⟨-, rfl⟩ | ⟨hk, -⟩ | ⟨hk, -⟩, -, -, -, rfl⟩ := h.data
  · rfl
  · rcases hi with rfl | rfl <;> simp at hk
  · rcases hi with rfl | rfl <;> simp at hk

theorem CoreMove.t {i : Instr} {s t : State} (h : CoreMove s i t)
    (hi : i ∉ [.encW0, .encW1, .decU0, .decU1, .fwd, .bwd]) : t.t = s.t := by
  obtain ⟨u, ⟨-, rfl⟩ | ⟨-, -, r, c, rfl⟩ | ⟨hk, -⟩, -, -, -, rfl⟩ := h.data
  · rfl
  · rfl
  · exact absurd hk hi

/-- The store is as it was, or has one word written, at IDX and inside it. -/
theorem CoreMove.blk {i : Instr} {s t : State} (h : CoreMove s i t) :
    t.blk = s.blk ∨ i ∈ [.encP1, .encP2, .decP1, .decP2, .fwd, .bwd] ∧ s.idx.toNat < s.cfg.maxLen ∧
      ∃ r, t.blk = s.blk.write s.idx.toNat r := by
  obtain ⟨u, ⟨-, rfl⟩ | ⟨hk, hx, r, c, rfl⟩ | ⟨-, v, r, rfl⟩, -, -, -, rfl⟩ := h.data
  · exact .inl rfl
  · exact .inr ⟨hk, hx, r, rfl⟩
  · exact .inl rfl

theorem CoreMove.blk_of_not_pass {i : Instr} {s t : State} (h : CoreMove s i t)
    (hi : i ∉ [.encP1, .encP2, .decP1, .decP2, .fwd, .bwd]) : t.blk = s.blk :=
  h.blk.resolve_right fun hk => hi hk.1

theorem CoreMove.read_other {i : Instr} {s t : State} (h : CoreMove s i t) {a : Nat} (ha : a ≠ s.idx.toNat) :
    t.blk.read a = s.blk.read a := by
  rcases h.blk with hb | ⟨-, -, r, hb⟩
  · rw [hb]
  · rw [hb, Memory.read_write_other _ ha]

theorem PassWrite.code {s u : State} (h : PassWrite s u) : u.code = s.code := by
  obtain ⟨-, r, c, rfl⟩ := h; rfl

theorem PassWrite.phase {s u : State} (h : PassWrite s u) : u.phase = s.phase := by
  obtain ⟨-, r, c, rfl⟩ := h; rfl

theorem PassWrite.idx {s u : State} (h : PassWrite s u) : u.idx = s.idx := by
  obtain ⟨-, r, c, rfl⟩ := h; rfl

theorem PassWrite.len {s u : State} (h : PassWrite s u) : u.len = s.len := by
  obtain ⟨-, r, c, rfl⟩ := h; rfl

theorem FoldWrite.code {s u : State} {v : Word} (h : FoldWrite s v u) : u.code = s.code := by
  obtain ⟨r, rfl⟩ := h; rfl

theorem FoldWrite.phase {s u : State} {v : Word} (h : FoldWrite s v u) : u.phase = s.phase := by
  obtain ⟨r, rfl⟩ := h; rfl

theorem FoldWrite.idx {s u : State} {v : Word} (h : FoldWrite s v u) : u.idx = s.idx := by
  obtain ⟨r, rfl⟩ := h; rfl

theorem FoldWrite.t {s u : State} {v : Word} (h : FoldWrite s v u) : u.t = v := by
  obtain ⟨r, rfl⟩ := h; rfl

/-- R26: a step of the core leaves CODE as it was, or ends the command with the code of a status: VALIDATE on a failed
check, ENC_W1, and DEC_P2 at index 0. -/
theorem StepMove.code {p : Phase} {s t : State} (h : StepMove s p t) :
    t.code = s.code ∨ (∃ x : Status, t.code = x.code) ∧ t.phase = .idle ∧
      (p = .validate ∧ firstFailure (kpBit s.cmdr) (ipBit s.cmdr) (dpBit s.cmdr) s.len ≠ none ∨
        p = .encW1 ∨ p = .decP2 ∧ s.idx = 0#32) := by
  cases h with
  | idle => exact .inl rfl
  | @reject x hx => exact .inr ⟨⟨x, rfl⟩, rfl, .inl ⟨rfl, by simp [hx]⟩⟩
  | startDecode => exact .inl rfl
  | startEncode => exact .inl rfl
  | encP1 hu => exact .inl (by rw [moveUp_eq]; exact hu.code)
  | decP1 hu => exact .inl (by rw [moveUp_eq]; exact hu.code)
  | encP2 hu => exact .inl (by rw [moveDown_setPhase]; exact hu.code)
  | @decP2 u hu =>
    rcases moveDown_succeed .decP2 u with ⟨h0, hm⟩ | ⟨-, hm⟩
    · rw [hm]; exact .inr ⟨⟨.success, rfl⟩, rfl, .inr (.inr ⟨rfl, hu.idx ▸ h0⟩)⟩
    · rw [hm]; exact .inl hu.code
  | encW0 hu => exact .inl hu.code
  | encW1 => exact .inr ⟨⟨.success, rfl⟩, rfl, .inr (.inl rfl)⟩
  | decU0 hu => exact .inl hu.code
  | decU1 hu => exact .inl hu.code

/-- The instructions that may write CODE, and when. -/
theorem CoreMove.code {i : Instr} {s t : State} (h : CoreMove s i t) :
    t.code = s.code ∨
      i = .validate ∧ firstFailure (kpBit s.cmdr) (ipBit s.cmdr) (dpBit s.cmdr) s.len ≠ none ∨
        i = .encW1 ∨ i = .decP2 ∧ s.idx = 0#32 := by
  cases h with
  | step h =>
    refine h.code.imp_right ?_
    rintro ⟨-, -, ⟨rfl, hf⟩ | rfl | ⟨rfl, h0⟩⟩
    · exact .inl ⟨rfl, hf⟩
    · exact .inr (.inl rfl)
    · exact .inr (.inr ⟨rfl, h0⟩)
  | microPass _ hu => exact .inl hu.code
  | microFold _ hu => exact .inl hu.code

theorem stepInstr_ne_micro (p : Phase) : ¬(p.stepInstr = .fwd ∨ p.stepInstr = .bwd) := by
  cases p <;> simp [Phase.stepInstr]

/-- A micro-operation by itself leaves the sequencer where it is (assumption 12). -/
theorem CoreMove.position_of_micro {i : Instr} {s t : State} (h : CoreMove s i t) (hi : i = .fwd ∨ i = .bwd) :
    t.phase = s.phase ∧ t.idx = s.idx := by
  cases h with
  | step => exact absurd hi (stepInstr_ne_micro _)
  | microPass _ hu => exact ⟨hu.phase, hu.idx⟩
  | microFold _ hu => exact ⟨hu.phase, hu.idx⟩

/-- Settles O47, clause by clause from what a core instruction can do. -/
theorem coreWritesOnlyItsOwn : Obligations.CoreWritesOnlyItsOwn := by
  intro i s t hi h
  have hm := coreMove_of_exec hi h
  obtain ⟨hklo, hkhi, hlen, hcmdr, hcfg, hhost, hreplies⟩ := hm.keeps
  refine ⟨hklo, hkhi, hlen, hcmdr, hcfg, hhost, hreplies, hm.iv, hm.t, hm.blk_of_not_pass, fun hi => ?_,
    fun hi h0 => ?_, fun hi hok => ?_, hm.position_of_micro, fun a ha => hm.read_other ha⟩
  · refine hm.code.resolve_right ?_
    rintro (⟨rfl, -⟩ | rfl | ⟨rfl, -⟩) <;> simp at hi
  · refine hm.code.resolve_right ?_
    simp [hi, h0]
  · refine hm.code.resolve_right ?_
    simp [hi, hok]

end Sys2Proof.Machine

/-! ### What a host transaction and a whole command can do, and what a step can be -/

namespace Sys2Proof.Machine

/-- What a host transaction that answers a next state does (44_host_access.md R151 to R155). Only in IDLE does it
write anything of the block. -/
inductive HostMove (s : State) : State → Prop
  | answer (r : Reply) : HostMove s (s.answer r)
  | setKlo (hp : s.phase = .idle) (v : Word) : HostMove s (s.setKlo v)
  | setKhi (hp : s.phase = .idle) (v : Word) : HostMove s (s.setKhi v)
  | setIv (hp : s.phase = .idle) (v : Word) : HostMove s (s.setIv v)
  | setLen (hp : s.phase = .idle) (v : Word) : HostMove s (s.setLen v)
  | issue (hp : s.phase = .idle) (hl : s.len.toNat ≤ s.cfg.maxLen) (w : BitVec 4) : HostMove s (s.issue w)
  | setWord (hp : s.phase = .idle) {n : Nat} (hn : n < s.cfg.maxLen) (v : Word) : HostMove s (s.setWord n v)

theorem execRd_next {r : Reg} {s t : State} (h : execRd r s = .next t) : HostMove s t := by
  cases r with
  | status => cases h; exact .answer _
  | cmd => cases (whenIdle_next h).2
  | klo | khi | iv | len => cases (whenIdle_next h).2; exact .answer _

theorem execWr_next {r : Reg} {v : Word} {s t : State} (h : execWr r v s = .next t) : HostMove s t := by
  obtain ⟨hp, h⟩ := whenIdle_next h
  cases r with
  | klo => cases h; exact .setKlo hp v
  | khi => cases h; exact .setKhi hp v
  | iv => cases h; exact .setIv hp v
  | len => cases h; exact .setLen hp v
  | cmd =>
    obtain ⟨hl, h⟩ := whenLengthFits_next h
    cases h; exact .issue hp hl _
  | status => cases h

theorem execRdb_next {n : Word} {s t : State} (h : execRdb n s = .next t) : HostMove s t := by
  obtain ⟨-, h⟩ := whenIdle_next h
  obtain ⟨-, h⟩ := whenInStore_next h
  cases h; exact .answer _

theorem execWrb_next {n v : Word} {s t : State} (h : execWrb n v s = .next t) : HostMove s t := by
  obtain ⟨hp, h⟩ := whenIdle_next h
  obtain ⟨hn, h⟩ := whenInStore_next h
  cases h; exact .setWord hp hn v

/-- A form of format HOST decodes to one of the four transactions. -/
theorem hostMove_of_exec {hdr : BitVec 2} {addr data : Word} {i : Instr} {s t : State}
    (hd : decodeHost hdr addr data = .ok i) (h : exec i s = .next t) : HostMove s t := by
  unfold decodeHost at hd
  split at hd
  case h_1 =>
    cases hr : decodeReg addr <;> rw [hr] at hd <;> cases hd
    exact execRd_next h
  case h_2 =>
    cases hr : decodeReg addr <;> rw [hr] at hd <;> cases hd
    exact execWr_next h
  case h_3 => cases hd; exact execRdb_next h
  case h_4 => cases hd; exact execWrb_next h

/-- A command word runs its transform on itself: what it decodes to encodes back to it. -/
theorem exec_decodeCommand (w : BitVec 4) (s : State) :
    exec (decodeCommand w) s = runCommand (if opBit w then decodeChain else encodeChain) w s := by
  have hw : commandWord (opBit w) (kpBit w) (ipBit w) (dpBit w) = w := by revert w; decide
  unfold decodeCommand
  split
  case isTrue hop => rw [hop] at hw; simp only [exec, execDecode, hw]
  case isFalse hop => rw [Bool.eq_false_iff.mpr hop] at hw; simp only [exec, execEncode, hw]

theorem decode_coreForm (s : State) : decode s.coreForm = .ok s.phase.stepInstr := by
  unfold State.coreForm
  cases s.phase <;> rfl

/-- What a step that answers a next state is: a step of the core, a transaction, a whole command or a reset event.
The state it acts on differs from `s` in the input only. -/
inductive StepKind (s : State) : State → Prop
  | core {t : State} (es : List HostEvent) (h : StepMove (s.setHost es) s.phase t) : StepKind s t
  | host {t : State} (es : List HostEvent) (h : HostMove (s.setHost es) t) : StepKind s t
  | command {t : State} {w : BitVec 4} {es : List HostEvent} (hs : s.host = .command w :: es)
      (h : runCommand (if opBit w then decodeChain else encodeChain) w (s.setHost es) = .next t) : StepKind s t
  | reset {es : List HostEvent} (hs : s.host = .reset :: es) : StepKind s (s.setHost es).assertReset

/-- What a step that runs an instruction fetched: the core's next step, a transaction (WAIT's read of STATUS is one),
or a command word at the head of the input. -/
theorem fetch_instr {s u : State} {e : Encoded} (h : fetch s = .instr e u) :
    ∃ es, u = s.setHost es ∧ (e = s.coreForm ∨ (∃ hdr addr data, e = .host hdr addr data) ∨
      ∃ w, e = .cmd w ∧ s.host = .command w :: es) := by
  unfold fetch at h
  split at h
  case h_1 => cases h; exact ⟨s.host, rfl, .inl rfl⟩
  case h_2 rest _ => cases h; exact ⟨rest, rfl, .inl rfl⟩
  case h_3 rest _ => cases h; exact ⟨rest, rfl, .inr (.inl ⟨_, _, _, rfl⟩)⟩
  case h_4 rest hs => cases h; exact ⟨rest, rfl, .inr (.inr ⟨_, rfl, hs⟩)⟩
  case h_5 rest _ =>
    split at h
    case isTrue => cases h; exact ⟨rest, rfl, .inr (.inl ⟨_, _, _, rfl⟩)⟩
    case isFalse => cases h; exact ⟨s.host, rfl, .inl rfl⟩
  case h_6 => cases h

theorem fetch_reset {s u : State} (h : fetch s = .reset u) : ∃ es, s.host = .reset :: es ∧ u = s.setHost es := by
  unfold fetch at h
  split at h
  case h_1 | h_2 | h_3 | h_4 => cases h
  case h_5 => split at h <;> cases h
  case h_6 rest hs => cases h; exact ⟨rest, hs, rfl⟩

/-- Every step is of one of the four kinds. -/
theorem stepKind_of_step {s t : State} (h : step s = .next t) : StepKind s t := by
  rcases step_next h with ⟨e, i, u, hf, hd, hx⟩ | ⟨u, hf, rfl⟩
  · obtain ⟨es, rfl, rfl | ⟨hdr, addr, data, rfl⟩ | ⟨w, rfl, hs⟩⟩ := fetch_instr hf
    · cases (decode_coreForm s).symm.trans hd
      exact .core es (stepMove_of_exec hx)
    · exact .host es (hostMove_of_exec hd hx)
    · cases hd
      exact .command hs (exec_decodeCommand w _ ▸ hx)
  · obtain ⟨es, hs, rfl⟩ := fetch_reset hf
    exact .reset hs

end Sys2Proof.Machine

/-! ### R26, R78: when STATUS.CODE changes -/

namespace Sys2Proof.Machine

theorem Status.code_le (x : Status) : x.code.toNat ≤ 4 := by
  cases x <;> decide

theorem HostMove.code {s t : State} (h : HostMove s t) : t.code = s.code := by
  cases h <;> rfl

theorem runCommand_code {f : Word → Word → Nat → Chain → Chain} {w : BitVec 4} {s t : State}
    (h : runCommand f w s = .next t) : (∃ x : Status, t.code = x.code) ∧ t.phase = .idle := by
  obtain ⟨hidle, -, ⟨x, -, rfl⟩ | ⟨-, rfl⟩⟩ := runCommand_next h
  · exact ⟨⟨x, rfl⟩, rfl⟩
  · exact ⟨⟨.success, rfl⟩, hidle⟩

/-- Settles O48, by the kind of the step: a core step that ends a command is not IDLE's. -/
theorem codeChangesOnlyAtCompletion : Obligations.CodeChangesOnlyAtCompletion := by
  intro s t hr h
  cases stepKind_of_step h with
  | core es hm =>
    refine hm.code.imp_right ?_
    rintro ⟨⟨x, hx⟩, hidle, hlast⟩
    have hbusy : s.phase ≠ .idle := by
      intro hp
      simp [hp] at hlast
    exact ⟨hx ▸ x.code_le, hidle, .inl hbusy⟩
  | host es hm => exact .inl hm.code
  | command hs hc =>
    obtain ⟨⟨x, hx⟩, hidle⟩ := runCommand_code hc
    exact .inr ⟨hx ▸ x.code_le, hidle, .inr ⟨_, _, hs⟩⟩
  | reset hs => exact absurd hs (hr _)

end Sys2Proof.Machine

/-! ### The invariant (10_state.md R32, R37; 42_encoder.md R120; 43_decoder.md R139) -/

namespace Sys2Proof.Machine

theorem firstFailure_eq_none {kp ip dp : Bool} {len : Word} :
    firstFailure kp ip dp len = none ↔ kp = true ∧ ip = true ∧ dp = true ∧ len ≠ 0#32 := by
  cases kp <;> cases ip <;> cases dp <;> simp [firstFailure]

/-- The one ENCODE word and the one DECODE word with every operand present (30_encoding.md R74). -/
theorem command_of_bits : ∀ w : BitVec 4, kpBit w = true → ipBit w = true → dpBit w = true →
    w = if opBit w then 0xF#4 else 0xE#4 := by decide

/-- What the checks of VALIDATE leave true when all pass. -/
theorem command_of_valid {w : BitVec 4} {len : Word} (h : firstFailure (kpBit w) (ipBit w) (dpBit w) len = none) :
    w = (if opBit w then 0xF#4 else 0xE#4) ∧ len ≠ 0#32 := by
  obtain ⟨hk, hi, hd, hl⟩ := firstFailure_eq_none.mp h
  exact ⟨command_of_bits w hk hi hd, hl⟩

/-- In IDLE only the store has a part in the invariant. -/
theorem inv_of_idle {s : State} (hp : s.phase = .idle) (hs : s.StoreOk) : s.Inv :=
  ⟨hs, by simp [State.CommandOk, hp, Phase.encoding, Phase.decoding],
    by simp [State.SequencerOk, hp, Phase.inPass, Phase.secondFold]⟩

/-! #### The store -/

/-- Canonical and below MAXLEN, for a store: what every write below the bound keeps. -/
def Memory.Ok (bound : Nat) (m : Memory) : Prop := m.wf = true ∧ m.below bound = true

theorem Memory.Ok.write {bound : Nat} {m : Memory} (h : m.Ok bound) {i : Nat} (hi : i < bound) (v : Word) :
    (m.write i v).Ok bound := ⟨Memory.write_wf h.1 i v, Memory.write_below h.2 hi v⟩

theorem storeOk_iff {s : State} : s.StoreOk ↔ s.cfg.InRange ∧ s.blk.Ok s.cfg.maxLen := Iff.rfl

theorem CoreMove.storeOk {i : Instr} {s t : State} (h : CoreMove s i t) (hs : s.StoreOk) : t.StoreOk := by
  obtain ⟨-, -, -, -, hcfg, -, -⟩ := h.keeps
  rw [storeOk_iff] at hs ⊢
  rw [hcfg]
  rcases h.blk with hb | ⟨-, hx, r, hb⟩
  · rw [hb]; exact hs
  · rw [hb]; exact ⟨hs.1, hs.2.write hx r⟩

/-- Both transforms write below LEN only, so a whole command keeps the store. -/
theorem runCommand_storeOk {op : Bool} {w : BitVec 4} {s t : State}
    (h : runCommand (if op then decodeChain else encodeChain) w s = .next t) (hs : s.StoreOk) : t.StoreOk := by
  obtain ⟨-, hl, ⟨x, -, rfl⟩ | ⟨-, rfl⟩⟩ := runCommand_next h
  · exact hs
  · obtain ⟨hcfg, hblk⟩ := storeOk_iff.mp hs
    have hwrite : ∀ (m : Memory) i v, i < s.len.toNat → m.Ok s.cfg.maxLen → (m.write i v).Ok s.cfg.maxLen :=
      fun m i v hi hm => hm.write (by omega) v
    cases op with
    | false => exact ⟨hcfg, encodeChain_keeps hwrite s.klo s.khi hblk⟩
    | true => exact ⟨hcfg, decodeChain_keeps hwrite s.klo s.khi hblk⟩

theorem assertReset_storeOk {s : State} (hs : s.StoreOk) : s.assertReset.StoreOk :=
  ⟨hs.1, rfl, rfl⟩

/-! #### The command and the position -/

/-- The positions the step of each phase may move to (30_encoding.md R81, "next position"). -/
def Phase.successors : Phase → List Phase
  | .idle => [.idle]
  | .validate => [.idle, .encP1, .decU0]
  | .encP1 => [.encP1, .encP2]
  | .encP2 => [.encP2, .encW0]
  | .encW0 => [.encW1]
  | .encW1 => [.idle]
  | .decU0 => [.decU1]
  | .decU1 => [.decP1]
  | .decP1 => [.decP1, .decP2]
  | .decP2 => [.decP2, .idle]

theorem moveUp_phase_mem (this after : Phase) (s : State) : (s.moveUp this after).phase ∈ [this, after] := by
  rw [moveUp_eq, State.setIdx_phase, State.setPhase_phase]
  split <;> simp

theorem moveDown_setPhase_phase_mem (this after : Phase) (s : State) :
    (s.moveDown this fun v => v.setPhase after).phase ∈ [this, after] := by
  rw [moveDown_setPhase, State.setIdx_phase, State.setPhase_phase]
  split <;> simp

theorem moveDown_succeed_phase_mem (this : Phase) (s : State) :
    (s.moveDown this State.succeed).phase ∈ [this, .idle] := by
  rcases moveDown_succeed this s with ⟨-, hm⟩ | ⟨-, hm⟩
  · simp [hm]
  · simp [hm]

theorem StepMove.phase_mem {p : Phase} {s t : State} (h : StepMove s p t) (hp : s.phase = p) :
    t.phase ∈ p.successors := by
  cases h with
  | idle => rw [hp]; decide
  | reject | startDecode | startEncode | encW0 | encW1 | decU0 | decU1 => simp [Phase.successors]
  | encP1 => exact moveUp_phase_mem ..
  | decP1 => exact moveUp_phase_mem ..
  | encP2 => exact moveDown_setPhase_phase_mem ..
  | decP2 => exact moveDown_succeed_phase_mem ..

/-- Past VALIDATE the position moves inside the command or back to IDLE. -/
theorem Phase.successors_same_command {p : Phase} (hp : p ≠ .validate) : ∀ q ∈ p.successors,
    (q ≠ .idle → p ≠ .idle) ∧ (q.encoding = true → p.encoding = true) ∧
      (q.decoding = true → p.decoding = true) := by
  cases p with
  | validate => exact absurd rfl hp
  | idle | encP1 | encP2 | encW0 | encW1 | decU0 | decU1 | decP1 | decP2 => decide

theorem StepMove.commandOk {s t : State} (h : StepMove s s.phase t) (hs : s.CommandOk) : t.CommandOk := by
  obtain ⟨-, -, hlen, hcmdr, hcfg, -, -⟩ := (CoreMove.step h).keeps
  obtain ⟨hfit, henc, hdec⟩ := hs
  unfold State.CommandOk
  rw [hlen, hcmdr, hcfg]
  by_cases hv : s.phase = .validate
  · rw [hv] at h
    cases h with
    | reject => simp [Phase.encoding, Phase.decoding]
    | startDecode hok hop =>
      have hc := command_of_valid hok
      rw [hop] at hc
      exact ⟨fun _ => hfit (by simp [hv]), by simp [Phase.encoding], fun _ => hc⟩
    | startEncode hok hop =>
      have hc := command_of_valid hok
      rw [hop] at hc
      exact ⟨fun _ => hfit (by simp [hv]), fun _ => hc, by simp [Phase.decoding]⟩
  · obtain ⟨hbusy, hse, hsd⟩ := Phase.successors_same_command hv _ (h.phase_mem rfl)
    exact ⟨hfit ∘ hbusy, henc ∘ hse, hdec ∘ hsd⟩

theorem sequencerOk_of_pass {s : State} (hx : s.idx.toNat < s.len.toNat) (hp : s.phase.secondFold = false) :
    s.SequencerOk := ⟨fun _ => hx, by simp [hp]⟩

theorem sequencerOk_of_fold {s : State} (ht : s.t = 1#32) (hp : s.phase.inPass = false) : s.SequencerOk :=
  ⟨by simp [hp], fun _ => ht⟩

theorem sequencerOk_of_neither {s : State} (hp : s.phase.inPass = false) (hf : s.phase.secondFold = false) :
    s.SequencerOk := ⟨by simp [hp], by simp [hf]⟩

theorem zero_toNat_lt {x : Word} (h : x ≠ 0#32) : (0#32).toNat < x.toNat := by
  bv_omega

theorem moveUp_sequencerOk {this after : Phase} (hthis : this.secondFold = false) (hafter : after.secondFold = false)
    {s : State} (hx : s.idx.toNat < s.len.toNat) : (s.moveUp this after).SequencerOk := by
  refine sequencerOk_of_pass ?_ ?_
  · simpa [moveUp_eq] using moveUp_idx_lt (this := this) (after := after) hx
  · have hmem := moveUp_phase_mem this after s
    simp only [List.mem_cons, List.not_mem_nil, or_false] at hmem
    rcases hmem with h | h
    · rw [h, hthis]
    · rw [h, hafter]

/-- One down in a falling pass, the index not 0. -/
theorem stepDown_sequencerOk {this : Phase} (hthis : this.secondFold = false) {s : State} (h0 : s.idx ≠ 0#32)
    (hx : s.idx.toNat < s.len.toNat) : ((s.setPhase this).setIdx (s.idx - 1#32)).SequencerOk :=
  sequencerOk_of_pass ((sub_one_toNat_lt h0).trans hx) hthis

/-- R32 and the T of the second fold, kept by every step of the core. -/
theorem StepMove.sequencerOk {p : Phase} {s t : State} (h : StepMove s p t) (hp : s.phase = p) (hc : s.CommandOk)
    (hs : s.SequencerOk) : t.SequencerOk := by
  obtain ⟨-, -, hdec⟩ := hc
  have hx : p.inPass = true → ∀ {u}, PassWrite s u → u.idx.toNat < u.len.toNat := fun hin u hu => by
    rw [hu.idx, hu.len]; exact hs.1 (hp ▸ hin)
  cases h with
  | idle => exact hs
  | reject => exact sequencerOk_of_neither rfl rfl
  | startDecode => exact sequencerOk_of_neither rfl rfl
  | startEncode hok => exact sequencerOk_of_pass (zero_toNat_lt (command_of_valid hok).2) rfl
  | encP1 hu => exact moveUp_sequencerOk rfl rfl (hx rfl hu)
  | @encP2 u hu =>
    rw [State.moveDown]
    split
    case isTrue => exact sequencerOk_of_neither rfl rfl
    case isFalse h0 => exact stepDown_sequencerOk rfl h0 (hx rfl hu)
  | encW0 hu => exact sequencerOk_of_fold hu.t rfl
  | encW1 => exact sequencerOk_of_neither rfl rfl
  | decU0 hu => exact sequencerOk_of_fold hu.t rfl
  | decU1 hu =>
    obtain ⟨r, rfl⟩ := hu
    exact sequencerOk_of_pass (zero_toNat_lt (hdec (by rw [hp]; rfl)).2) rfl
  | decP1 hu => exact moveUp_sequencerOk rfl rfl (hx rfl hu)
  | @decP2 u hu =>
    rcases moveDown_succeed .decP2 u with ⟨-, hm⟩ | ⟨h0, hm⟩
    · rw [hm]; exact sequencerOk_of_neither rfl rfl
    · rw [hm]; exact stepDown_sequencerOk rfl h0 (hx rfl hu)

/-! #### The step -/

theorem StepMove.inv {s t : State} (h : StepMove s s.phase t) (hs : s.Inv) : t.Inv := by
  obtain ⟨hstore, hcommand, hsequencer⟩ := hs
  exact ⟨(CoreMove.step h).storeOk hstore, h.commandOk hcommand, h.sequencerOk rfl hcommand hsequencer⟩

theorem HostMove.inv {s t : State} (h : HostMove s t) (hs : s.Inv) : t.Inv := by
  have hstore : s.StoreOk := hs.1
  cases h with
  | answer r => exact hs
  | setKlo hp v => exact inv_of_idle hp hstore
  | setKhi hp v => exact inv_of_idle hp hstore
  | setIv hp v => exact inv_of_idle hp hstore
  | setLen hp v => exact inv_of_idle hp hstore
  | issue hp hl w =>
    exact ⟨hstore, ⟨fun _ => hl, by simp [Phase.encoding], by simp [Phase.decoding]⟩, sequencerOk_of_neither rfl rfl⟩
  | setWord hp hn v => exact inv_of_idle hp ⟨hstore.1, (storeOk_iff.mp hstore).2.write hn v⟩

/-- Settles O44, by the kind of the step; the input is no part of the invariant. -/
theorem stepKeepsInvariant : Obligations.StepKeepsInvariant := by
  intro s t hs h
  cases stepKind_of_step h with
  | core es hm => exact hm.inv hs
  | host es hm => exact hm.inv hs
  | command _ hc => exact inv_of_idle (runCommand_code hc).2 (runCommand_storeOk hc hs.1)
  | reset => exact inv_of_idle rfl (assertReset_storeOk hs.1)

end Sys2Proof.Machine

/-! ### R38: a command's result depends only on its inputs -/

namespace Sys2Proof.Machine

/-- Two chains agree on the counter and on the words below `n`. -/
def Chain.Agree (n : Nat) (p q : Chain) : Prop := p.2 = q.2 ∧ ∀ a, a < n → p.1.read a = q.1.read a

theorem chainStep_agree {d : Dir} {n i : Nat} {b b' : Word} {p q : Chain} (hb : b = b') (hi : i < n)
    (h : Chain.Agree n p q) : Chain.Agree n (chainStep d i b p) (chainStep d i b' q) := by
  obtain ⟨hc, hr⟩ := h
  subst hb
  refine ⟨by simp only [chainStep, hc, hr i hi], fun a ha => ?_⟩
  simp only [chainStep, Memory.read_write, hc, hr i hi, hr a ha]

/-- Inside the sequence the lower neighbour is KLO or a word below its end. -/
theorem lowerStep_agree {d : Dir} {klo : Word} {n i : Nat} {p q : Chain} (hi : i < n) (h : Chain.Agree n p q) :
    Chain.Agree n (chainStep d i (lowerOf klo i p.1) p) (chainStep d i (lowerOf klo i q.1) q) :=
  chainStep_agree (lowerOf_congr fun _ => h.2 _ (by omega)) hi h

/-- Inside the sequence the upper neighbour is KHI or a word below its end. -/
theorem upperStep_agree {d : Dir} {khi : Word} {n i : Nat} {p q : Chain} (hi : i < n) (h : Chain.Agree n p q) :
    Chain.Agree n (chainStep d i (upperOf khi n i p.1) p) (chainStep d i (upperOf khi n i q.1) q) := by
  refine chainStep_agree ?_ hi h
  unfold upperOf
  split_ifs
  · rfl
  · exact h.2 _ (by omega)

/-- A body that keeps agreement at every index below `n` keeps it over a rising pass. -/
theorem risingPass_agree {body : Nat → Chain → Chain} {n : Nat}
    (hb : ∀ i p q, i < n → Chain.Agree n p q → Chain.Agree n (body i p) (body i q)) {k i : Nat} {p q : Chain}
    (hi : i + k ≤ n) (h : Chain.Agree n p q) : Chain.Agree n (risingPass body k i p) (risingPass body k i q) := by
  induction k generalizing i p q with
  | zero => exact h
  | succ k ih => exact ih (by omega) (hb i p q (by omega) h)

theorem fallingPass_agree {body : Nat → Chain → Chain} {n : Nat}
    (hb : ∀ i p q, i < n → Chain.Agree n p q → Chain.Agree n (body i p) (body i q)) {k : Nat} {p q : Chain}
    (hk : k ≤ n) (h : Chain.Agree n p q) : Chain.Agree n (fallingPass body k p) (fallingPass body k q) := by
  induction k generalizing p q with
  | zero => exact h
  | succ k ih => exact ih (by omega) (hb k p q (by omega) h)

theorem encodePasses_agree (klo khi : Word) {n : Nat} {p q : Chain} (h : Chain.Agree n p q) :
    Chain.Agree n (encodePasses klo khi n p) (encodePasses klo khi n q) := by
  refine fallingPass_agree (fun _ _ _ => upperStep_agree) le_rfl ?_
  exact risingPass_agree (fun _ _ _ => lowerStep_agree) (Nat.zero_add n).le h

theorem decodePasses_agree (klo khi : Word) {n : Nat} {p q : Chain} (h : Chain.Agree n p q) :
    Chain.Agree n (decodePasses klo khi n p) (decodePasses klo khi n q) := by
  refine fallingPass_agree (fun _ _ _ => lowerStep_agree) le_rfl ?_
  exact risingPass_agree (fun _ _ _ => upperStep_agree) (Nat.zero_add n).le h

/-- The wrap reads BLK[0], which the sequence holds. -/
theorem encodeChain_agree (klo khi : Word) (n : Nat) (p q : Chain) (hn : 0 < n) (h : Chain.Agree n p q) :
    Chain.Agree n (encodeChain klo khi n p) (encodeChain klo khi n q) := by
  obtain ⟨hc, hr⟩ := encodePasses_agree klo khi h
  exact ⟨by simp only [encodeChain, hc, hr 0 hn], hr⟩

/-- The unwrap reads BLK[0], which the sequence holds. -/
theorem decodeChain_agree (klo khi : Word) (n : Nat) (p q : Chain) (hn : 0 < n) (h : Chain.Agree n p q) :
    Chain.Agree n (decodeChain klo khi n p) (decodeChain klo khi n q) := by
  obtain ⟨hc, hr⟩ := h
  refine decodePasses_agree klo khi ⟨?_, hr⟩
  rw [hc, hr 0 hn]

/-- A command on an idle state whose length fits always answers: the outcome of its checks. -/
theorem runCommand_of_failure {f : Word → Word → Nat → Chain → Chain} {w : BitVec 4} {s : State} {x : Status}
    (hp : s.phase = .idle) (hl : s.len.toNat ≤ s.cfg.maxLen)
    (hx : firstFailure (kpBit w) (ipBit w) (dpBit w) s.len = some x) :
    runCommand f w s = .next ((s.setCmdr w).raise x) := by
  simp [runCommand, whenIdle_of_idle hp, whenLengthFits, hl, hx]

theorem runCommand_of_success {f : Word → Word → Nat → Chain → Chain} {w : BitVec 4} {s : State}
    (hp : s.phase = .idle) (hl : s.len.toNat ≤ s.cfg.maxLen)
    (hok : firstFailure (kpBit w) (ipBit w) (dpBit w) s.len = none) :
    runCommand f w s = .next
      { s with
        blk := (f s.klo s.khi s.len.toNat (s.blk, s.iv)).1
        iv := (f s.klo s.khi s.len.toNat (s.blk, s.iv)).2
        code := Status.success.code
        t := 2#32
        idx := 0#32
        cmdr := w } := by
  simp [runCommand, whenIdle_of_idle hp, whenLengthFits, hl, hok]

/-- R38's inputs, and its results: what two states share of the block a command works on. -/
def SameOperands (s₁ s₂ : State) : Prop :=
  s₁.klo = s₂.klo ∧ s₁.khi = s₂.khi ∧ s₁.len = s₂.len ∧ s₁.iv = s₂.iv ∧
    ∀ a, a < s₁.len.toNat → s₁.blk.read a = s₂.blk.read a

/-- A command whose transform keeps agreement on the words below LEN gives equal results on equal operands. -/
theorem runCommand_sameOperands {f : Word → Word → Nat → Chain → Chain}
    (hf : ∀ klo khi n p q, 0 < n → Chain.Agree n p q → Chain.Agree n (f klo khi n p) (f klo khi n q)) (w : BitVec 4)
    {s₁ s₂ : State} (h₁ : s₁.phase = .idle) (h₂ : s₂.phase = .idle) (hl₁ : s₁.len.toNat ≤ s₁.cfg.maxLen)
    (hl₂ : s₂.len.toNat ≤ s₂.cfg.maxLen) (h : SameOperands s₁ s₂) :
    ∃ t₁ t₂, runCommand f w s₁ = .next t₁ ∧ runCommand f w s₂ = .next t₂ ∧ t₁.code = t₂.code ∧ t₁.len = s₁.len ∧
      SameOperands t₁ t₂ := by
  obtain ⟨hklo, hkhi, hlen, hiv, hblk⟩ := id h
  cases hx : firstFailure (kpBit w) (ipBit w) (dpBit w) s₁.len with
  | some x =>
    exact ⟨_, _, runCommand_of_failure h₁ hl₁ hx, runCommand_of_failure h₂ hl₂ (hlen ▸ hx), rfl, rfl, h⟩
  | none =>
    have hpos : 0 < s₁.len.toNat := zero_toNat_lt (command_of_valid hx).2
    obtain ⟨hc, hr⟩ := hf s₁.klo s₁.khi s₁.len.toNat (s₁.blk, s₁.iv) (s₂.blk, s₂.iv) hpos ⟨hiv, hblk⟩
    refine ⟨_, _, runCommand_of_success h₁ hl₁ hx, runCommand_of_success h₂ hl₂ (hlen ▸ hx), rfl, rfl,
      hklo, hkhi, hlen, ?_, ?_⟩
    · simpa only [hklo, hkhi, hlen] using hc
    · simpa only [hklo, hkhi, hlen] using hr

/-- Settles O37: both transforms keep agreement on the words below LEN. -/
theorem equalInputsEqualResults : Obligations.EqualInputsEqualResults := by
  intro s₁ s₂ kp ip dp i hi h₁ h₂ hl₁ hl₂ hklo hkhi hiv hlen hblk
  have hrun : ∃ t₁ t₂, exec i s₁ = .next t₁ ∧ exec i s₂ = .next t₂ ∧ t₁.code = t₂.code ∧ t₁.len = s₁.len ∧
      SameOperands t₁ t₂ := by
    rcases hi with rfl | rfl
    · exact runCommand_sameOperands encodeChain_agree _ h₁ h₂ hl₁ hl₂
        ⟨hklo, hkhi, hlen, hiv, hblk⟩
    · exact runCommand_sameOperands decodeChain_agree _ h₁ h₂ hl₁ hl₂
        ⟨hklo, hkhi, hlen, hiv, hblk⟩
  obtain ⟨t₁, t₂, ht₁, ht₂, hcode, hn, hklo', hkhi', hlen', hiv', hblk'⟩ := hrun
  exact ⟨t₁, t₂, ht₁, ht₂, hcode, hiv', hklo', hkhi', hlen', hn ▸ hblk'⟩

end Sys2Proof.Machine

/-! ### R27 and R36: PROD, and the state after reset -/

namespace Sys2Proof.Machine

theorem keyProduct_toNat (klo khi : Word) : (keyProduct klo khi).toNat = klo.toNat * khi.toNat % 4294967296 :=
  BitVec.toNat_mul klo khi

/-- Settles O7: multiplication of words is that of numbers modulo 2^32; the rule's examples are computed. -/
theorem keyProductKeepsLowBits : Obligations.KeyProductKeepsLowBits := by
  refine ⟨keyProduct_toNat, ?_⟩
  decide

/-- Settles O52: the position State.reset names is IDLE, and BUSY is read off it. -/
theorem resetIsIdle : Obligations.ResetIsIdle := ⟨rfl, rfl⟩

/-- Settles O45: in IDLE the invariant asks for the store only, and the empty store at the default MAXLEN meets it. -/
theorem resetMeetsInvariant : Obligations.ResetMeetsInvariant :=
  inv_of_idle rfl ⟨by decide, State.reset_blk_wf, rfl⟩

end Sys2Proof.Machine

/-! The family 20_memory.md: the words at or above LEN (R55; 93_implementation_defined.md U7). A step of the core writes
at IDX only, which R32 keeps below LEN; both transforms write below LEN only. -/

namespace Sys2Proof.Machine

/-- With no input left a step is the step kind of the current phase. -/
theorem step_of_no_host {s : State} (h : s.host = []) : step s = exec s.phase.stepInstr s := by
  have hf : fetch s = .instr s.coreForm s := by simp only [fetch, h]
  simp only [step, hf, runForm, decode_coreForm]

/-- Only the step kinds of the four pass phases write the store. -/
theorem stepInstr_not_pass {p : Phase} (hp : p.inPass = false) :
    p.stepInstr ∉ [.encP1, .encP2, .decP1, .decP2, .fwd, .bwd] := by
  cases p with
  | encP1 | encP2 | decP1 | decP2 => cases hp
  | idle | validate | encW0 | encW1 | decU0 | decU1 => decide

theorem StepMove.read_of_len_le {s t : State} (h : StepMove s s.phase t) (hs : s.SequencerOk) {a : Nat}
    (ha : s.len.toNat ≤ a) : t.blk.read a = s.blk.read a := by
  cases hp : s.phase.inPass with
  | false => rw [(CoreMove.step h).blk_of_not_pass (stepInstr_not_pass hp)]
  | true =>
    have hx : s.idx.toNat < s.len.toNat := hs.1 hp
    exact (CoreMove.step h).read_other (by omega)

/-- A write below `n` keeps what a word at or above `n` reads as: the property both transforms carry along. -/
theorem Memory.read_write_of_lt_of_le {n a : Nat} {r : Word} (ha : n ≤ a) (m : Memory) (i : Nat) (v : Word)
    (hi : i < n) (hm : m.read a = r) : (m.write i v).read a = r :=
  (Memory.read_write_other m (by omega) v).trans hm

theorem encodeChain_read_of_le (klo khi : Word) {n a : Nat} (ha : n ≤ a) (p : Chain) :
    (encodeChain klo khi n p).1.read a = p.1.read a :=
  encodeChain_keeps (P := fun m => m.read a = p.1.read a)
    (Memory.read_write_of_lt_of_le ha) klo khi rfl

theorem decodeChain_read_of_le (klo khi : Word) {n a : Nat} (ha : n ≤ a) (p : Chain) :
    (decodeChain klo khi n p).1.read a = p.1.read a :=
  decodeChain_keeps (P := fun m => m.read a = p.1.read a)
    (Memory.read_write_of_lt_of_le ha) klo khi rfl

/-- A rejected command writes no word, and one that succeeds writes what its transform writes. -/
theorem runCommand_read_of_len_le {f : Word → Word → Nat → Chain → Chain} {a : Nat}
    (hf : ∀ klo khi {n}, n ≤ a → ∀ p, (f klo khi n p).1.read a = p.1.read a) {w : BitVec 4} {s t : State}
    (h : runCommand f w s = .next t) (ha : s.len.toNat ≤ a) : t.blk.read a = s.blk.read a := by
  obtain ⟨-, -, ⟨x, -, rfl⟩ | ⟨-, rfl⟩⟩ := runCommand_next h
  · rfl
  · exact hf s.klo s.khi ha (s.blk, s.iv)

/-- Settles O49: the core's step by its phase and the invariant's R32, a whole command by its transform. -/
theorem wordsAboveLengthUntouched : Obligations.WordsAboveLengthUntouched := by
  refine ⟨fun s t hs hhost h a ha => ?_, fun s t kp ip dp h a ha => ?_⟩
  · obtain ⟨-, -, hseq⟩ := hs
    exact (stepMove_of_exec (step_of_no_host hhost ▸ h)).read_of_len_le hseq ha
  · rcases h with h | h
    · exact runCommand_read_of_len_le (fun klo khi _ => encodeChain_read_of_le klo khi) h ha
    · exact runCommand_read_of_len_le (fun klo khi _ => decodeChain_read_of_le klo khi) h ha

end Sys2Proof.Machine

/-! The family 30_encoding.md: the decoder (R71 to R83), a micro-operation and the step it stands in (R81), the STATUS
word (R79), and which instruction a step runs. -/

/-! ### Which raw forms are instructions (R73, R83) -/

namespace Sys2Proof

theorem decodeReg_error_iff (n : Word) : (∃ err, decodeReg n = .error err) ↔ 6 ≤ n.toNat := by
  unfold decodeReg
  split
  case h_1 | h_2 | h_3 | h_4 | h_5 | h_6 => exact iff_of_false (by simp) (by omega)
  case h_7 | h_8 => exact iff_of_true ⟨_, rfl⟩ (by omega)
  case h_9 => exact iff_of_true ⟨_, rfl⟩ (by grind)

theorem decodeStep_error_iff (code : BitVec 4) : (∃ err, decodeStep code = .error err) ↔ 10 ≤ code.toNat := by
  unfold decodeStep
  split
  case h_1 | h_2 | h_3 | h_4 | h_5 | h_6 | h_7 | h_8 | h_9 | h_10 =>
    exact iff_of_false (by simp) (by omega)
  case h_11 => exact iff_of_true ⟨_, rfl⟩ (by grind)

theorem toNat_lt_two_iff_spaceBit : ∀ hdr : BitVec 2, hdr.toNat < 2 ↔ spaceBit hdr = false := by decide

theorem exists_map_eq_error_iff {ε α β : Type} (f : α → β) (x : Except ε α) :
    (∃ err, x.map f = .error err) ↔ ∃ err, x = .error err := by
  cases x <;> simp [Except.map]

/-- Only a REG transaction has an address that can be no instruction: a word index is any word. -/
theorem decodeHost_error_iff (hdr : BitVec 2) (addr data : Word) :
    (∃ err, decodeHost hdr addr data = .error err) ↔ hdr.toNat < 2 ∧ 6 ≤ addr.toNat := by
  rw [toNat_lt_two_iff_spaceBit, ← decodeReg_error_iff]
  unfold decodeHost
  split
  case h_1 hs _ | h_2 hs _ => simp [exists_map_eq_error_iff, hs]
  case h_3 hs _ | h_4 hs _ => simp [hs]

/-- Settles O4, format by format: every command word and direction bit is an instruction. -/
theorem formsWithNoInstruction : Obligations.FormsWithNoInstruction := by
  intro e
  cases e with
  | cmd w => simp [decode]
  | uop dir => simp [decode]
  | step code => simpa [decode] using decodeStep_error_iff code
  | host hdr addr data => simpa [decode] using decodeHost_error_iff hdr addr data

/-- The bits of a command word, put together again, are the word. -/
theorem commandWord_bits : ∀ w : BitVec 4, commandWord (opBit w) (kpBit w) (ipBit w) (dpBit w) = w := by decide

theorem encode_decodeCommand (w : BitVec 4) : encode (decodeCommand w) = .cmd w := by
  have hw := commandWord_bits w
  unfold decodeCommand
  split
  case isTrue hop => rw [hop] at hw; exact congrArg Encoded.cmd hw
  case isFalse hop => rw [Bool.eq_false_iff.mpr hop] at hw; exact congrArg Encoded.cmd hw

/-- Settles O3: the decoder takes every word to a command, whose encoding is the word. -/
theorem everyCommandWordIsACommand : Obligations.EveryCommandWordIsACommand :=
  fun w => ⟨decodeCommand w, rfl, encode_decodeCommand w⟩

/-- Settles O1: the decoder evaluates on each of the ten closed words. -/
theorem tableWordsDecode : Obligations.TableWordsDecode :=
  ⟨rfl, rfl, rfl, rfl, rfl, rfl, rfl, rfl, rfl, rfl⟩

end Sys2Proof

/-! ### R81: a micro-operation by itself, and the step it stands in -/

namespace Sys2Proof.Machine

theorem microAlone_of_unwired {s : State} (hw : s.phase.wiring = none) (d : Dir) :
    microAlone d s = .refused .noOperandsWired := by
  simp only [microAlone, hw]

/-- Settles O10: the wiring table has no row for the two phases. -/
theorem microOpWithoutOperandsRefused : Obligations.MicroOpWithoutOperandsRefused := by
  intro s hp
  have hw : s.phase.wiring = none := by
    rcases hp with hp | hp
    · rw [hp]; rfl
    · rw [hp]; rfl
  exact ⟨microAlone_of_unwired hw .fwd, microAlone_of_unwired hw .bwd⟩

/-- A step on the wiring of the current phase is the micro-operation by itself and then the sequencer's move. -/
theorem stepWith_of_microAlone {d : Dir} {w : Wiring} {move : State → State} {s u : State}
    (hw : s.phase.wiring = some w) (h : microAlone d s = .next u) : stepWith d w move s = .next (move u) := by
  simp only [microAlone, hw] at h
  obtain ⟨v, hv, rfl⟩ := stepWith_next h
  exact stepWith_of_microOp hv

/-- Settles O11: each step kind is defined on the wiring its phase has in the table; the positions named are its move,
by definition. -/
theorem combiningStepIsMicroOpThenMove : Obligations.CombiningStepIsMicroOpThenMove := by
  intro s u
  refine ⟨?encP1, ?encP2, ?encW0, ?encW1, ?decU0, ?decU1, ?decP1, ?decP2⟩
  case encP1 | encP2 | encW0 | encW1 | decU0 | decU1 | decP1 | decP2 =>
    intro hp h
    dsimp only [exec]
    exact stepWith_of_microAlone (congrArg Phase.wiring hp) h

/-- Settles O12: with no input left the step is the phase's, and IDLE's changes nothing. -/
theorem idleStays : Obligations.IdleStays :=
  fun s => ⟨rfl, fun hp hh => by rw [step_of_no_host hh, hp]; rfl⟩

end Sys2Proof.Machine

/-! ### R79: the STATUS word -/

namespace Sys2Proof.Machine

theorem statusWord_low (s : State) : s.statusWord.extractLsb' 0 3 = s.code :=
  BitVec.extractLsb'_append_eq_right

theorem statusWord_high (s : State) : s.statusWord.getLsbD 3 = s.busy :=
  BitVec.getLsbD_append.trans (by simp)

theorem busy_iff (s : State) : s.busy = true ↔ s.phase ≠ .idle := by
  simp [State.busy]

/-- Settles O23: CODE is the low part of the word, and the bit above it BUSY. -/
theorem statusReadLayout : Obligations.StatusReadLayout :=
  fun s => ⟨statusWord_low s, by rw [statusWord_high, busy_iff]⟩

end Sys2Proof.Machine

/-! ### Which instruction a step runs (R81; 44_host_access.md R150, R164) -/

namespace Sys2Proof.Machine

theorem step_of_fetch {s u : State} {e : Encoded} {i : Instr} (hf : fetch s = .instr e u) (hd : decode e = .ok i) :
    step s = exec i u := by
  simp only [step, hf, runForm, hd]

theorem step_of_fetch_error {s u : State} {e : Encoded} {err : DecodeError} (hf : fetch s = .instr e u)
    (hd : decode e = .error err) : step s = .refused (.undecodable err) := by
  simp only [step, hf, runForm, hd]

section

variable {s : State} {rest : List HostEvent}

theorem fetch_coreTurn (h : s.host = .coreTurn :: rest) : fetch s = .instr s.coreForm (s.setHost rest) := by
  simp only [fetch, h]

theorem fetch_transaction {hdr : BitVec 2} {addr data : Word} (h : s.host = .transaction hdr addr data :: rest) :
    fetch s = .instr (.host hdr addr data) (s.setHost rest) := by
  simp only [fetch, h]

theorem fetch_command {w : BitVec 4} (h : s.host = .command w :: rest) :
    fetch s = .instr (.cmd w) (s.setHost rest) := by
  simp only [fetch, h]

/-- WAIT lets the core step, and stays, while a command is in progress. -/
theorem fetch_wait_of_busy (h : s.host = .wait :: rest) (hp : s.phase ≠ .idle) :
    fetch s = .instr s.coreForm s := by
  simp only [fetch, h, hp, if_false]

theorem fetch_wait_of_idle (h : s.host = .wait :: rest) (hp : s.phase = .idle) :
    fetch s = .instr readStatusForm (s.setHost rest) := by
  simp only [fetch, h, hp, if_true]

end

/-- Settles O50, event by event: what is fetched, and what it decodes to. -/
theorem stepRunsDecodedInstruction : Obligations.StepRunsDecodedInstruction := by
  intro s
  refine ⟨decode_coreForm s, step_of_no_host, fun rest => ⟨?coreTurn, ?transaction, ?noInstruction, ?command,
    ?waitBusy, ?waitIdle⟩⟩
  case coreTurn => exact fun h => step_of_fetch (fetch_coreTurn h) (decode_coreForm s)
  case transaction => exact fun _ _ _ _ h hd => step_of_fetch (fetch_transaction h) hd
  case noInstruction => exact fun _ _ _ _ h hd => step_of_fetch_error (fetch_transaction h) hd
  case command => exact fun _ h => step_of_fetch (fetch_command h) rfl
  case waitBusy => exact fun h hp => step_of_fetch (fetch_wait_of_busy h hp) (decode_coreForm s)
  case waitIdle => exact fun h hp => step_of_fetch (fetch_wait_of_idle h hp) rfl

end Sys2Proof.Machine

/-! The family 40_combine.md: the combine primitive and its inverse law (R91 to R93), and FWD and BWD by themselves on
the wiring of each combining step (R91, R92; 30_encoding.md R81). -/

/-! ### R93: the inverse law, for one call and for a run -/

namespace Sys2Proof.Machine

theorem xor_xor_xor_cancel (a b c : Word) : a ^^^ b ^^^ c ^^^ b ^^^ c = a := by
  rw [BitVec.xor_assoc _ b c, BitVec.xor_assoc a b c, BitVec.xor_assoc, BitVec.xor_self, BitVec.xor_zero]

theorem backwardCombine_forwardCombine (c a b : Word) :
    backwardCombine (forwardCombine c a b).2 (forwardCombine c a b).1 b = (a, c) := by
  have hc : c + 1#32 - 1#32 = c := BitVec.add_sub_cancel c 1#32
  simp only [forwardCombine, backwardCombine, hc, xor_xor_xor_cancel]

theorem forwardCombine_backwardCombine (c a b : Word) :
    forwardCombine (backwardCombine c a b).2 (backwardCombine c a b).1 b = (a, c) := by
  have hc : c - 1#32 + 1#32 = c := BitVec.sub_add_cancel c 1#32
  simp only [forwardCombine, backwardCombine, hc, xor_xor_xor_cancel]

/-- Settles O5: the counter is back at its old value, and so the second XOR takes away what the first one put in. -/
theorem combineFlavoursInvert : Obligations.CombineFlavoursInvert := by
  intro c a b r c'
  constructor
  · intro h
    simpa only [h] using backwardCombine_forwardCombine c a b
  · intro h
    simpa only [h] using forwardCombine_backwardCombine c a b

/-- A run over two lists is the run over the first and then, from its counter, the run over the second. -/
theorem combineRun_append (d : Dir) (c : Word) (ps qs : List (Word × Word)) :
    combineRun d c (ps ++ qs) =
      ((combineRun d c ps).1 ++ (combineRun d (combineRun d c ps).2 qs).1,
        (combineRun d (combineRun d c ps).2 qs).2) := by
  induction ps generalizing c with
  | nil => rfl
  | cons p rest ih => simp only [List.cons_append, combineRun, ih]

theorem combineRun_fwd_counter (c : Word) (ps : List (Word × Word)) :
    (combineRun .fwd c ps).2 = c + BitVec.ofNat 32 ps.length := by
  induction ps generalizing c with
  | nil => exact (BitVec.add_zero c).symm
  | cons p rest ih => exact (ih (c + 1#32)).trans (count_up c rest.length)

/-- The last call of the backward run undoes the first call of the forward run. -/
theorem combineRun_bwd_undoes_fwd (c : Word) (ps : List (Word × Word)) :
    combineRun .bwd (combineRun .fwd c ps).2 (((combineRun .fwd c ps).1.zip (ps.map Prod.snd)).reverse) =
      ((ps.map Prod.fst).reverse, c) := by
  induction ps generalizing c with
  | nil => rfl
  | cons p rest ih =>
    obtain ⟨a, b⟩ := p
    have hlast : combine .bwd (combine .fwd c a b).2 (combine .fwd c a b).1 b = (a, c) :=
      backwardCombine_forwardCombine c a b
    simp only [combineRun, List.map_cons, List.zip_cons_cons, List.reverse_cons, combineRun_append, ih,
      hlast]

/-- Settles O6, by induction over the run. -/
theorem forwardRunUndoneBackward : Obligations.ForwardRunUndoneBackward :=
  fun c ps => ⟨combineRun_fwd_counter c ps, combineRun_bwd_undoes_fwd c ps⟩

end Sys2Proof.Machine

/-! ### R91, R92: what a micro-operation writes on each row of the wiring table -/

namespace Sys2Proof.Machine

/-- The writes of a pass micro-operation: the result to the word at IDX, the new counter to IV. -/
def State.writePass (s : State) (r : Word × Word) : State := (s.setWord s.idx.toNat r.1).setIv r.2

/-- The writes of a wrap or unwrap micro-operation: the result to IV, the new counter to T. -/
def State.writeFold (s : State) (r : Word × Word) : State := (s.setIv r.1).setT r.2

section

variable {s : State}

theorem microOp_lowerWiring (hx : s.idx.toNat < s.cfg.maxLen) (d : Dir) :
    microOp d lowerWiring s =
      .ok (s.writePass (combine d s.iv (s.blk.read s.idx.toNat) (lowerOf s.klo s.idx.toNat s.blk))) :=
  microOp_of_operands (State.coreRead_of_lt hx) (State.secondOperand_lower hx)

theorem microOp_upperWiring (hx : s.idx.toNat < s.len.toNat) (hl : s.len.toNat ≤ s.cfg.maxLen) (d : Dir) :
    microOp d upperWiring s =
      .ok (s.writePass (combine d s.iv (s.blk.read s.idx.toNat) (upperOf s.khi s.len.toNat s.idx.toNat s.blk))) :=
  microOp_of_operands (State.coreRead_of_lt (hx.trans_le hl)) (State.secondOperand_upper hx hl)

/-- A counter that does not come from IV comes from T, and goes there. -/
theorem microOp_foldWiring {c : CounterSource} (hc : c ≠ .iv) {x : SecondSource} {b : Word}
    (hb : s.secondOperand x = .ok b) (d : Dir) :
    microOp d ⟨c, .iv, x⟩ s = .ok (s.writeFold (combine d (s.counterOperand c) s.iv b)) := by
  cases c with
  | iv => exact absurd rfl hc
  | t | tFromZero => exact microOp_of_operands rfl hb

theorem microOp_productWiring {c : CounterSource} (hc : c ≠ .iv) (d : Dir) :
    microOp d ⟨c, .iv, .product⟩ s =
      .ok (s.writeFold (combine d (s.counterOperand c) s.iv (keyProduct s.klo s.khi))) :=
  microOp_foldWiring hc rfl d

theorem microOp_firstBlockWiring {c : CounterSource} (hc : c ≠ .iv) (h0 : 0 < s.cfg.maxLen) (d : Dir) :
    microOp d ⟨c, .iv, .firstBlock⟩ s =
      .ok (s.writeFold (combine d (s.counterOperand c) s.iv (s.blk.read 0))) :=
  microOp_foldWiring hc (x := .firstBlock) (State.coreRead_of_lt h0) d

theorem microAlone_of_microOp {d : Dir} {w : Wiring} {u : State} (hw : s.phase.wiring = some w)
    (h : microOp d w s = .ok u) : microAlone d s = .next u := by
  simp only [microAlone, hw]
  exact stepWith_of_microOp h

/-- ENC_P1 and DEC_P2 have one row of the wiring table. -/
theorem microAlone_lower (hp : s.phase = .encP1 ∨ s.phase = .decP2) (hx : s.idx.toNat < s.cfg.maxLen) (d : Dir) :
    microAlone d s =
      .next (s.writePass (combine d s.iv (s.blk.read s.idx.toNat) (lowerOf s.klo s.idx.toNat s.blk))) := by
  have hw : s.phase.wiring = some lowerWiring :=
    hp.elim (congrArg Phase.wiring) (congrArg Phase.wiring)
  exact microAlone_of_microOp hw (microOp_lowerWiring hx d)

/-- ENC_P2 and DEC_P1 have one row of the wiring table. -/
theorem microAlone_upper (hp : s.phase = .encP2 ∨ s.phase = .decP1) (hx : s.idx.toNat < s.len.toNat)
    (hl : s.len.toNat ≤ s.cfg.maxLen) (d : Dir) :
    microAlone d s = .next
      (s.writePass (combine d s.iv (s.blk.read s.idx.toNat) (upperOf s.khi s.len.toNat s.idx.toNat s.blk))) := by
  have hw : s.phase.wiring = some upperWiring :=
    hp.elim (congrArg Phase.wiring) (congrArg Phase.wiring)
  exact microAlone_of_microOp hw (microOp_upperWiring hx hl d)

end

/-- From T = 0 the counter is no part of a forward fold's XOR. -/
theorem writeFold_forwardCombine_zero (s : State) (a b : Word) :
    s.writeFold (forwardCombine 0#32 a b) = { s with iv := a ^^^ b, t := 1#32 } := by
  have h : forwardCombine 0#32 a b = (a ^^^ b, 1#32) := by
    simp only [forwardCombine, BitVec.xor_zero, BitVec.zero_add]
  rw [h]
  rfl

/-- Settles O8, row by row of the wiring table; from T = 0 the XOR is that of `writeFold_forwardCombine_zero`. -/
theorem fwdOnEveryWiring : Obligations.FwdOnEveryWiring := by
  refine ⟨fun _ _ _ => rfl, fun s hx hl => ⟨?lower, ?upper⟩, fun s h0 => ⟨?encW0, ?encW1, ?decU0, ?decU1⟩⟩
  case lower => exact fun hp => microAlone_lower hp (hx.trans_le hl) .fwd
  case upper => exact fun hp => microAlone_upper hp hx hl .fwd
  case encW0 =>
    intro hp
    have h := microAlone_of_microOp (congrArg Phase.wiring hp) (microOp_productWiring (by decide) .fwd)
    exact h.trans (congrArg Host.Outcome.next (writeFold_forwardCombine_zero s _ _))
  case encW1 =>
    exact fun hp => microAlone_of_microOp (congrArg Phase.wiring hp) (microOp_firstBlockWiring (by decide) h0 .fwd)
  case decU0 =>
    intro hp
    have h := microAlone_of_microOp (congrArg Phase.wiring hp) (microOp_firstBlockWiring (by decide) h0 .fwd)
    exact h.trans (congrArg Host.Outcome.next (writeFold_forwardCombine_zero s _ _))
  case decU1 =>
    exact fun hp => microAlone_of_microOp (congrArg Phase.wiring hp) (microOp_productWiring (by decide) .fwd)

/-- Settles O9: the two passes of DECODE have the two pass rows of the wiring table. -/
theorem bwdOnPassWiring : Obligations.BwdOnPassWiring :=
  ⟨fun _ _ _ => rfl, fun _ hx hl =>
    ⟨fun hp => microAlone_upper (.inr hp) hx hl .bwd, fun hp => microAlone_lower (.inr hp) (hx.trans_le hl) .bwd⟩⟩

/-- Settles O58, row by row of the wiring table; from T = 0 the new counter 2^32 - 1 is computed. -/
theorem bwdOnOtherWirings : Obligations.BwdOnOtherWirings := by
  refine ⟨fun s hx hl => ⟨?encP1, ?encP2⟩, fun s h0 => ⟨?encW0, ?encW1, ?decU0, ?decU1⟩⟩
  case encP1 => exact fun hp => microAlone_lower (.inl hp) (hx.trans_le hl) .bwd
  case encP2 => exact fun hp => microAlone_upper (.inl hp) hx hl .bwd
  case encW0 | decU1 =>
    exact fun hp => microAlone_of_microOp (congrArg Phase.wiring hp) (microOp_productWiring (by decide) .bwd)
  case encW1 | decU0 =>
    exact fun hp => microAlone_of_microOp (congrArg Phase.wiring hp) (microOp_firstBlockWiring (by decide) h0 .bwd)

end Sys2Proof.Machine

/-! ### The validator: the first failing check decides (R101, R103, R105; 60_exceptions.md R171 to R173) -/

namespace Sys2Proof.Machine

section
variable {kp ip dp : Bool} {len : Word}

theorem firstFailure_of_noKey (hk : kp = false) : firstFailure kp ip dp len = some .invalidKey := if_pos hk

theorem firstFailure_of_noIv (hk : ¬kp = false) (hi : ip = false) : firstFailure kp ip dp len = some .invalidIv :=
  (if_neg hk).trans (if_pos hi)

theorem firstFailure_of_noData (hk : ¬kp = false) (hi : ¬ip = false) (hd : dp = false) :
    firstFailure kp ip dp len = some .invalidData :=
  (if_neg hk).trans <| (if_neg hi).trans (if_pos hd)

theorem firstFailure_of_noLength (hk : ¬kp = false) (hi : ¬ip = false) (hd : ¬dp = false) (hl : len = 0#32) :
    firstFailure kp ip dp len = some .invalidLength :=
  (if_neg hk).trans <| (if_neg hi).trans <| (if_neg hd).trans (if_pos hl)

theorem firstFailure_of_valid (hk : ¬kp = false) (hi : ¬ip = false) (hd : ¬dp = false) (hl : ¬len = 0#32) :
    firstFailure kp ip dp len = none :=
  firstFailure_eq_none.mpr ⟨Bool.eq_true_of_not_eq_false hk, Bool.eq_true_of_not_eq_false hi,
    Bool.eq_true_of_not_eq_false hd, hl⟩

/-- With an operand missing or no length some check fails; the length's is reported only after the other three. -/
theorem exists_firstFailure_of_rejected (h : (kp && ip && dp) = false ∨ len = 0#32) :
    ∃ x, firstFailure kp ip dp len = some x ∧
      x.code = if kp = false then 1#3 else if ip = false then 2#3 else if dp = false then 3#3 else 4#3 := by
  split_ifs with hk hi hd
  · exact ⟨_, firstFailure_of_noKey hk, rfl⟩
  · exact ⟨_, firstFailure_of_noIv hk hi, rfl⟩
  · exact ⟨_, firstFailure_of_noData hk hi hd, rfl⟩
  · have hpresent : (kp && ip && dp) ≠ false := by simp [hk, hi, hd]
    exact ⟨_, firstFailure_of_noLength hk hi hd (h.resolve_left hpresent), rfl⟩

end

section
variable {s : State}

theorem execValidate_of_failure {x : Status}
    (hx : firstFailure (kpBit s.cmdr) (ipBit s.cmdr) (dpBit s.cmdr) s.len = some x) :
    execValidate s = .next (s.raise x) := by
  simp only [execValidate, hx]

theorem execValidate_of_encode (hok : firstFailure (kpBit s.cmdr) (ipBit s.cmdr) (dpBit s.cmdr) s.len = none)
    (hop : opBit s.cmdr = false) : execValidate s = .next ((s.setPhase .encP1).setIdx 0#32) := by
  simp only [execValidate, hok, hop, Bool.false_eq_true, if_false]

theorem execValidate_of_decode (hok : firstFailure (kpBit s.cmdr) (ipBit s.cmdr) (dpBit s.cmdr) s.len = none)
    (hop : opBit s.cmdr = true) : execValidate s = .next (s.setPhase .decU0) := by
  simp only [execValidate, hok, hop, if_true]

end

/-- Settles O13, check by check in the validator's order. -/
theorem validateOutcome : Obligations.ValidateOutcome := by
  intro s
  split_ifs with hk hi hd hl hop
  · exact execValidate_of_failure (firstFailure_of_noKey hk)
  · exact execValidate_of_failure (firstFailure_of_noIv hk hi)
  · exact execValidate_of_failure (firstFailure_of_noData hk hi hd)
  · exact execValidate_of_failure (firstFailure_of_noLength hk hi hd hl)
  · exact execValidate_of_encode (firstFailure_of_valid hk hi hd hl) hop
  · exact execValidate_of_decode (firstFailure_of_valid hk hi hd hl) (Bool.eq_true_of_not_eq_false hop)

@[simp] theorem kpBit_commandWord : ∀ op kp ip dp : Bool, kpBit (commandWord op kp ip dp) = kp := by decide

@[simp] theorem ipBit_commandWord : ∀ op kp ip dp : Bool, ipBit (commandWord op kp ip dp) = ip := by decide

@[simp] theorem dpBit_commandWord : ∀ op kp ip dp : Bool, dpBit (commandWord op kp ip dp) = dp := by decide

/-- A rejected command on an idle state writes CMDR and CODE; PHASE is IDLE before and after. -/
theorem runCommand_of_rejected {f : Word → Word → Nat → Chain → Chain} {s : State} (hp : s.phase = .idle)
    (hl : s.len.toNat ≤ s.cfg.maxLen) {op kp ip dp : Bool} {x : Status}
    (hx : firstFailure kp ip dp s.len = some x) :
    runCommand f (commandWord op kp ip dp) s =
      .next { s with code := x.code, cmdr := commandWord op kp ip dp } := by
  rw [runCommand_of_failure hp hl (by simpa using hx)]
  simp [State.raise, State.setStatus, State.setPhase, State.setCmdr, hp]

/-- Settles O29: the transform of a rejected command is never reached, so both directions answer alike. -/
theorem rejectedCommandChangesStatusOnly : Obligations.RejectedCommandChangesStatusOnly := by
  intro s kp ip dp hp hl h
  obtain ⟨x, hx, hcode⟩ := exists_firstFailure_of_rejected h
  rw [← hcode]
  exact ⟨runCommand_of_rejected hp hl hx, runCommand_of_rejected hp hl hx⟩

end Sys2Proof.Machine

/-! The family 42_encoder.md: the four step kinds of ENCODE (R111, R113, R116, R117), the path of its two passes
(R115, R120), the closed forms of the whole command (R112, R114, R118), and what follows from them (R121, R122). -/

/-! ### The pass steps: result, frame and next position (R111, R113) -/

namespace Sys2Proof.Machine

/-- The boundary test of `lower(x)` on the index as a word. -/
theorem lowerOf_toNat (klo x : Word) (m : Memory) :
    lowerOf klo x.toNat m = if x = 0#32 then klo else m.read (x.toNat - 1) := by
  have hx : x.toNat = 0 ↔ x = 0#32 := by rw [← BitVec.toNat_inj, BitVec.toNat_zero]
  simp only [lowerOf, hx]

section

variable {s : State}

theorem exec_encP1 (hx : s.idx.toNat < s.len.toNat) (hl : s.len.toNat ≤ s.cfg.maxLen) :
    exec .encP1 s = .next
      { s with
        blk := s.blk.write s.idx.toNat
          (s.blk.read s.idx.toNat ^^^ lowerOf s.klo s.idx.toNat s.blk ^^^ s.iv)
        iv := s.iv + 1#32
        phase := if s.idx.toNat + 1 = s.len.toNat then .encP2 else .encP1
        idx := if s.idx.toNat + 1 = s.len.toNat then s.idx else s.idx + 1#32 } :=
  (stepWith_of_microOp (microOp_lowerWiring (hx.trans_le hl) .fwd)).trans (congrArg _ (moveUp_eq ..))

theorem exec_encP2 (hx : s.idx.toNat < s.len.toNat) (hl : s.len.toNat ≤ s.cfg.maxLen) :
    exec .encP2 s = .next
      { s with
        blk := s.blk.write s.idx.toNat
          (s.blk.read s.idx.toNat ^^^ upperOf s.khi s.len.toNat s.idx.toNat s.blk ^^^ s.iv)
        iv := s.iv + 1#32
        phase := if s.idx = 0#32 then .encW0 else .encP2
        idx := if s.idx = 0#32 then s.idx else s.idx - 1#32 } :=
  (stepWith_of_microOp (microOp_upperWiring hx hl .fwd)).trans (congrArg _ (moveDown_setPhase ..))

/-- The answer of a step that writes the word `r` at `i`, read back from the store it leaves: the word at `i` is `r`
and every other word is as before. -/
theorem exists_answer_of_write {o : Result} {i : Nat} {r c x : Word} {q : Phase}
    (h : o = .next { s with blk := s.blk.write i r, iv := c, phase := q, idx := x }) :
    ∃ t, o = .next t ∧ t.blk.read i = r ∧ (∀ a, a ≠ i → t.blk.read a = s.blk.read a) ∧
      t = { s with blk := s.blk.write i (t.blk.read i), iv := c, phase := q, idx := x } :=
  ⟨_, h, Memory.read_write_same .., fun _ ha => Memory.read_write_other _ ha _, by rw [Memory.read_write_same]⟩

end

/-- Settles O14: the forward combine on the row of `lower(x)`, then the move up. -/
theorem encP1Step : Obligations.EncP1Step := by
  intro s hx hl
  rw [← lowerOf_toNat]
  exact exists_answer_of_write (exec_encP1 hx hl)

/-- Settles O15: the forward combine on the row of `upper(x)`, then the move down. -/
theorem encP2Step : Obligations.EncP2Step :=
  fun _ hx hl => exists_answer_of_write (exec_encP2 hx hl)

end Sys2Proof.Machine

/-! ### The wrap and the unwrap (R116 to R119; 43_decoder.md R131 to R133) -/

namespace Sys2Proof.Machine

section

variable {s : State}

theorem exec_encW0 (s : State) :
    exec .encW0 s = .next { s with iv := s.iv ^^^ s.klo * s.khi, t := 1#32, phase := .encW1 } :=
  (stepWith_of_microOp (move := fun u => u.setPhase .encW1) (microOp_productWiring (by decide) .fwd)).trans
    (congrArg (fun u => Host.Outcome.next (u.setPhase .encW1)) (writeFold_forwardCombine_zero s ..))

theorem exec_encW1 (h0 : 0 < s.cfg.maxLen) :
    exec .encW1 s = .next
      { s with iv := s.iv ^^^ s.blk.read 0 ^^^ s.t, t := s.t + 1#32, code := 0#3, phase := .idle } :=
  stepWith_of_microOp (microOp_firstBlockWiring (by decide) h0 .fwd)

theorem exec_decU0 (h0 : 0 < s.cfg.maxLen) :
    exec .decU0 s = .next { s with iv := s.iv ^^^ s.blk.read 0, t := 1#32, phase := .decU1 } :=
  (stepWith_of_microOp (microOp_firstBlockWiring (by decide) h0 .fwd)).trans
    (congrArg (fun u => Host.Outcome.next (u.setPhase .decU1)) (writeFold_forwardCombine_zero s ..))

theorem exec_decU1 (s : State) :
    exec .decU1 s = .next
      { s with iv := s.iv ^^^ s.klo * s.khi ^^^ s.t, t := s.t + 1#32, phase := .decP1, idx := 0#32 } :=
  stepWith_of_microOp (move := fun u => (u.setPhase .decP1).setIdx 0#32) (microOp_productWiring (by decide) .fwd)

/-- With no input left a step of phase `p` is `p`'s step kind. -/
theorem step_of_phase {p : Phase} (hh : s.host = []) (hp : s.phase = p) : step s = exec p.stepInstr s :=
  hp ▸ step_of_no_host hh

/-- With no input left two steps are the step kinds of the two phases, one after the other. -/
theorem stepsFrom_two_of_phases {u t : State} {p q : Phase} (hh : s.host = []) (hp : s.phase = p)
    (h₁ : exec p.stepInstr s = .next u) (hu : u.host = []) (hq : u.phase = q) (h₂ : exec q.stepInstr u = .next t) :
    stepsFrom 2 s = .next t :=
  (stepsFrom_succ 1 ((step_of_phase hh hp).trans h₁)).trans (stepsFrom_succ 0 ((step_of_phase hu hq).trans h₂))

end

/-- Settles O16: the counter of the fold is 0, which the XOR does not see. -/
theorem encW0Step : Obligations.EncW0Step := exec_encW0

/-- Settles O17: the second clause is the first at T = 1. -/
theorem encW1Step : Obligations.EncW1Step := by
  intro s h0
  refine ⟨exec_encW1 h0, fun ht => ?_⟩
  have h := exec_encW1 h0
  rw [ht] at h
  exact h

/-- Settles O42: the second step finds the T = 1 that the first one leaves. -/
theorem wrapAndUnwrapFoldTheSame : Obligations.WrapAndUnwrapFoldTheSame := by
  refine fun s hh h0 => ⟨fun hp => ?wrap, fun hp => ?unwrap⟩
  case wrap => exact stepsFrom_two_of_phases hh hp (exec_encW0 s) hh rfl (exec_encW1 h0)
  case unwrap => exact stepsFrom_two_of_phases hh hp (exec_decU0 h0) hh rfl (exec_decU1 _)

end Sys2Proof.Machine

/-! ### The closed forms of ENCODE (R112, R114, R118) -/

namespace Sys2Proof.Machine

/-- `m` steps up and then `n` steps up. -/
theorem count_up_add (c : Word) (m n : Nat) :
    c + BitVec.ofNat 32 m + BitVec.ofNat 32 n = c + BitVec.ofNat 32 (m + n) := by
  rw [BitVec.add_assoc, BitVec.ofNat_add]

/-- ENCODE's pass 1 over `n` blocks, the first half of `encodePasses`. -/
def encodeFirstPass (klo : Word) (n : Nat) (p : Chain) : Chain :=
  risingPass (fun i q => chainStep .fwd i (lowerOf klo i q.1) q) n 0 p

theorem encodeFirstPass_counter (klo : Word) (n : Nat) (p : Chain) :
    (encodeFirstPass klo n p).2 = p.2 + BitVec.ofNat 32 n :=
  (encodeRising klo n 0 p.1 p.2).1

/-- R112: the words between the passes are `E`, by induction on the index. -/
theorem encodeFirstPass_read (klo : Word) {n : Nat} (p : Chain) {i : Nat} (hi : i < n) :
    (encodeFirstPass klo n p).1.read i = encodeMiddle klo p.2 p.1.read i := by
  have hword := (encodeRising klo n 0 p.1 p.2).2.1
  induction i with
  | zero => exact (hword 0 le_rfl (by omega)).trans (congrArg _ (BitVec.add_zero p.2))
  | succ i ih =>
    have hlower : lowerOf klo (i + 1) (encodeFirstPass klo n p).1 = encodeMiddle klo p.2 p.1.read i := ih (by omega)
    refine (hword (i + 1) (Nat.zero_le _) (by omega)).trans ?_
    exact congrArg (p.1.read (i + 1) ^^^ · ^^^ _) hlower

theorem encodePasses_counter (klo khi : Word) (n : Nat) (p : Chain) :
    (encodePasses klo khi n p).2 = p.2 + BitVec.ofNat 32 (2 * n) := by
  have hfalling := (encodeFalling khi n n (encodeFirstPass klo n p).1 (encodeFirstPass klo n p).2).1
  refine hfalling.trans ?_
  rw [encodeFirstPass_counter, count_up_add, Nat.two_mul]

/-- R114: each word of `F` takes in `E`, its upper neighbour in `F`, and the counter of its step. -/
theorem encodePasses_read (klo khi : Word) {n : Nat} (p : Chain) {i : Nat} (hi : i < n) :
    (encodePasses klo khi n p).1.read i = encodeMiddle klo p.2 p.1.read i ^^^
      upperOf khi n i (encodePasses klo khi n p).1 ^^^ (p.2 + BitVec.ofNat 32 (2 * n - 1 - i)) := by
  have hcount : (encodeFirstPass klo n p).2 + BitVec.ofNat 32 (n - 1 - i) = p.2 + BitVec.ofNat 32 (2 * n - 1 - i) := by
    rw [encodeFirstPass_counter, count_up_add, show n + (n - 1 - i) = 2 * n - 1 - i by omega]
  have hfalling := (encodeFalling khi n n (encodeFirstPass klo n p).1 (encodeFirstPass klo n p).2).2.1 i hi
  rw [encodeFirstPass_read klo p hi, hcount] at hfalling
  exact hfalling

/-- The wrap and the unwrap use T = 0, which the XOR does not see, and T = 1. -/
theorem foldTwo_eq (c x y : Word) : foldTwo c x y = c ^^^ x ^^^ y ^^^ 1#32 := by
  simp only [foldTwo, forwardCombine, BitVec.xor_zero, BitVec.zero_add]

theorem exec_encode {s : State} (hp : s.phase = .idle) (h0 : s.len ≠ 0#32) (hl : s.len.toNat ≤ s.cfg.maxLen) :
    exec (.encode true true true) s = .next
      { s with
        blk := (encodePasses s.klo s.khi s.len.toNat (s.blk, s.iv)).1
        iv := (encodeChain s.klo s.khi s.len.toNat (s.blk, s.iv)).2
        code := 0#3
        t := 2#32
        idx := 0#32
        cmdr := 0xE#4 } :=
  runCommand_of_success hp hl (firstFailure_eq_none.mpr ⟨rfl, rfl, rfl, h0⟩)

/-- Settles O30: the last word's upper neighbour is KHI and the counter of its step is `C0 + N`. -/
theorem encodeClosedForm : Obligations.EncodeClosedForm := by
  intro s hp h0 hl
  have hn : 0 < s.len.toNat := zero_toNat_lt h0
  refine ⟨_, exec_encode hp h0 hl, rfl, ?last, fun j hj => ?inner, fun a ha => ?above, ?counter⟩
  case last =>
    have h := encodePasses_read s.klo s.khi (s.blk, s.iv) (Nat.sub_one_lt_of_lt hn)
    rw [upperOf, if_pos (by omega), show 2 * s.len.toNat - 1 - (s.len.toNat - 1) = s.len.toNat by omega,
      BitVec.ofNat_toNat, BitVec.setWidth_eq] at h
    exact h
  case inner =>
    have h := encodePasses_read s.klo s.khi (s.blk, s.iv) (Nat.lt_of_succ_lt hj)
    rw [upperOf, if_neg (by omega)] at h
    exact h
  case above => exact encodeChain_read_of_le s.klo s.khi ha (s.blk, s.iv)
  case counter => rw [encodeChain, foldTwo_eq, encodePasses_counter, keyProduct]

end Sys2Proof.Machine

/-! ### What follows from the closed forms (R121, R122) -/

namespace Sys2Proof.Machine

/-- Settles O34: the closed form at LEN = 1, whose last word is the word at 0. -/
theorem encodeSingleBlock : Obligations.EncodeSingleBlock := by
  intro s hp h1 hmax
  have hn : s.len.toNat = 1 := congrArg BitVec.toNat h1
  obtain ⟨t, ht, -, hlast, -, -, hiv⟩ := encodeClosedForm s hp (by rw [h1]; decide) (by omega)
  rw [hn] at hlast hiv
  rw [h1] at hlast
  exact ⟨t, ht, hlast, hiv⟩

/-- In a XOR one operand can be moved to the other side of an equation. -/
theorem xor_eq_iff_eq_xor (a p f c : Word) : a ^^^ p ^^^ f ^^^ 1#32 = c ↔ f = c ^^^ a ^^^ p ^^^ 1#32 := by
  have hmove : a ^^^ p ^^^ (c ^^^ 1#32) = c ^^^ a ^^^ p ^^^ 1#32 := by ac_rfl
  rw [xor_eq_iff_left_eq, xor_eq_iff_right_eq, hmove]

/-- Settles O36: (a) the two seeds and the two counters cancel; (b) the counter's closed form, solved for `F[0]`. -/
theorem encodePromisesNoDifference : Obligations.EncodePromisesNoDifference := by
  constructor
  · intro s hp h1 hmax hklo hkhi hiv
    obtain ⟨t, ht, hword, -⟩ := encodeSingleBlock s hp h1 hmax
    refine ⟨t, ht, ?_⟩
    rw [hword, hklo, hkhi, hiv]
    simp only [BitVec.xor_zero, BitVec.zero_add, BitVec.xor_assoc, BitVec.xor_self]
  · intro s hp h0 hl
    obtain ⟨t, ht, -, -, -, -, hiv⟩ := encodeClosedForm s hp h0 hl
    refine ⟨t, ht, ?_⟩
    rw [hiv]
    exact xor_eq_iff_eq_xor ..

end Sys2Proof.Machine

/-! ### The path of the two passes (R115, R120) -/

namespace Sys2Proof.Machine

/-- Where ENCODE's passes over the sequence of `s` are after `k` steps from ENC_P1 at 0, and what they keep. -/
structure EncodePathAt (s : State) (k : Nat) (u : State) : Prop where
  host : u.host = []
  len : u.len = s.len
  cfg : u.cfg = s.cfg
  t : u.t = s.t
  code : u.code = s.code
  iv : u.iv = s.iv + BitVec.ofNat 32 k
  rising : k < s.len.toNat → u.phase = .encP1 ∧ u.idx.toNat = k
  falling : s.len.toNat ≤ k → k < 2 * s.len.toNat → u.phase = .encP2 ∧ u.idx.toNat = 2 * s.len.toNat - 1 - k
  done : k = 2 * s.len.toNat → u.phase = .encW0

section

variable {s u : State} {k : Nat}

theorem EncodePathAt.step_rising (h : EncodePathAt s k u) (hk : k < s.len.toNat)
    (hl : s.len.toNat ≤ s.cfg.maxLen) : ∃ v, step u = .next v ∧ EncodePathAt s (k + 1) v := by
  obtain ⟨hp, hx⟩ := h.rising hk
  have hn : u.len.toNat = s.len.toNat := congrArg BitVec.toNat h.len
  refine ⟨_, (step_of_phase h.host hp).trans (exec_encP1 (by omega) (by rw [hn, h.cfg]; exact hl)), ?_⟩
  have hlen : s.len.toNat < 4294967296 := s.len.isLt
  refine ⟨h.host, h.len, h.cfg, h.t, h.code, ?_, fun hr => ?_, fun hf _ => ?_, fun hd => by omega⟩
  · rw [h.iv]; exact count_up_add s.iv k 1
  · have hhigh : ¬u.idx.toNat + 1 = u.len.toNat := by omega
    simp only [if_neg hhigh, true_and]
    bv_omega
  · have hhigh : u.idx.toNat + 1 = u.len.toNat := by omega
    simp only [if_pos hhigh, true_and]
    omega

theorem EncodePathAt.step_falling (h : EncodePathAt s k u) (hk : s.len.toNat ≤ k) (hk2 : k < 2 * s.len.toNat)
    (hl : s.len.toNat ≤ s.cfg.maxLen) : ∃ v, step u = .next v ∧ EncodePathAt s (k + 1) v := by
  obtain ⟨hp, hx⟩ := h.falling hk hk2
  have hn : u.len.toNat = s.len.toNat := congrArg BitVec.toNat h.len
  refine ⟨_, (step_of_phase h.host hp).trans (exec_encP2 (by omega) (by rw [hn, h.cfg]; exact hl)), ?_⟩
  refine ⟨h.host, h.len, h.cfg, h.t, h.code, ?_, fun hr => by omega, fun _ hf => ?_, fun hd => ?_⟩
  · rw [h.iv]; exact count_up_add s.iv k 1
  · have hlow : ¬u.idx = 0#32 := by bv_omega
    simp only [if_neg hlow, true_and]
    bv_omega
  · have hlow : u.idx = 0#32 := by bv_omega
    exact if_pos hlow

theorem exists_encodePathAt (hh : s.host = []) (hp : s.phase = .encP1) (hx : s.idx = 0#32) (h0 : s.len ≠ 0#32)
    (hl : s.len.toNat ≤ s.cfg.maxLen) (hk : k ≤ 2 * s.len.toNat) :
    ∃ u, stepsFrom k s = .next u ∧ EncodePathAt s k u := by
  have hn : 0 < s.len.toNat := zero_toNat_lt h0
  induction k with
  | zero =>
    exact ⟨s, rfl, hh, rfl, rfl, rfl, rfl, (BitVec.add_zero s.iv).symm, fun _ => ⟨hp, congrArg BitVec.toNat hx⟩,
      fun _ _ => by omega, fun _ => by omega⟩
  | succ k ih =>
    obtain ⟨u, hu, hat⟩ := ih (by omega)
    have hstep : ∃ v, step u = .next v ∧ EncodePathAt s (k + 1) v := by
      rcases Nat.lt_or_ge k s.len.toNat with hlt | hge
      · exact hat.step_rising hlt hl
      · exact hat.step_falling hge (by omega) hl
    obtain ⟨v, hv, hat'⟩ := hstep
    exact ⟨v, (stepsFrom_append hu).trans (stepsFrom_succ 0 hv), hat'⟩

end

/-- Settles O40, by induction on the number of steps. -/
theorem encodePassPath : Obligations.EncodePassPath := by
  intro s k hh hp hx h0 hl hk
  obtain ⟨u, hu, hat⟩ := exists_encodePathAt hh hp hx h0 hl hk
  exact ⟨u, hu, hat.iv, hat.t, hat.code, hat.rising, hat.falling, hat.done⟩

end Sys2Proof.Machine

/-! The family 43_decoder.md: the four step kinds of DECODE (R131, R132, R134, R136), the closed forms of the whole
command (R133, R135, R137, R138) with one block (R143), the round trips (R140, R141), and the path of the two passes
(R135, R137, R139). -/

/-! ### The step kinds (R131, R132, R134, R136) -/

namespace Sys2Proof.Machine

/-- Settles O18: from T = 0 the counter is no part of the fold. -/
theorem decU0Step : Obligations.DecU0Step := fun _ => exec_decU0

/-- Settles O19: the second clause is the first at T = 1. -/
theorem decU1Step : Obligations.DecU1Step := by
  intro s
  refine ⟨exec_decU1 s, fun ht => ?_⟩
  have h := exec_decU1 s
  rw [ht] at h
  exact h

/-- DEC_P2's move as one record update. -/
theorem moveDown_succeed_eq (this : Phase) (s : State) :
    s.moveDown this State.succeed =
      { s with
        code := if s.idx = 0#32 then 0#3 else s.code
        phase := if s.idx = 0#32 then .idle else this
        idx := if s.idx = 0#32 then s.idx else s.idx - 1#32 } := by
  obtain ⟨h0, h⟩ | ⟨h0, h⟩ := moveDown_succeed this s
  · simp only [h, if_pos h0]; rfl
  · simp only [h, if_neg h0]; rfl

section

variable {s : State}

theorem exec_decP1 (hx : s.idx.toNat < s.len.toNat) (hl : s.len.toNat ≤ s.cfg.maxLen) :
    exec .decP1 s = .next
      { s with
        blk := s.blk.write s.idx.toNat
          (s.blk.read s.idx.toNat ^^^ upperOf s.khi s.len.toNat s.idx.toNat s.blk ^^^ (s.iv - 1#32))
        iv := s.iv - 1#32
        phase := if s.idx.toNat + 1 = s.len.toNat then .decP2 else .decP1
        idx := if s.idx.toNat + 1 = s.len.toNat then s.idx else s.idx + 1#32 } :=
  (stepWith_of_microOp (microOp_upperWiring hx hl .bwd)).trans (congrArg _ (moveUp_eq ..))

theorem exec_decP2 (hx : s.idx.toNat < s.len.toNat) (hl : s.len.toNat ≤ s.cfg.maxLen) :
    exec .decP2 s = .next
      { s with
        blk := s.blk.write s.idx.toNat
          (s.blk.read s.idx.toNat ^^^ lowerOf s.klo s.idx.toNat s.blk ^^^ (s.iv - 1#32))
        iv := s.iv - 1#32
        code := if s.idx = 0#32 then 0#3 else s.code
        phase := if s.idx = 0#32 then .idle else .decP2
        idx := if s.idx = 0#32 then s.idx else s.idx - 1#32 } :=
  (stepWith_of_microOp (microOp_lowerWiring (hx.trans_le hl) .bwd)).trans (congrArg _ (moveDown_succeed_eq ..))

end

/-- Settles O20: the backward combine on the row of `upper(x)`, then the move up. -/
theorem decP1Step : Obligations.DecP1Step :=
  fun _ hx hl => exists_answer_of_write (exec_decP1 hx hl)

/-- Settles O21: the backward combine on the row of `lower(x)`, then the move down, read as a write to the state that
has the new CODE already. -/
theorem decP2Step : Obligations.DecP2Step := by
  intro s hx hl
  rw [← lowerOf_toNat]
  exact exists_answer_of_write (s := { s with code := if s.idx = 0#32 then 0#3 else s.code }) (exec_decP2 hx hl)

end Sys2Proof.Machine

/-! ### The closed forms of DECODE (R133, R135, R137, R138, R143) -/

namespace Sys2Proof.Machine

/-- `m` steps down and then `n` steps down. -/
theorem count_down_add (c : Word) (m n : Nat) :
    c - BitVec.ofNat 32 m - BitVec.ofNat 32 n = c - BitVec.ofNat 32 (m + n) := by
  rw [BitVec.ofNat_add, sub_sub]

/-- `m` steps down are `m + n` steps down and `n` steps up. -/
theorem count_down_up (c : Word) (m n : Nat) :
    c - BitVec.ofNat 32 m = c - BitVec.ofNat 32 (m + n) + BitVec.ofNat 32 n := by
  rw [← count_down_add, BitVec.sub_add_cancel]

/-- DECODE's pass 1 over `n` blocks, the first half of `decodePasses`. -/
def decodeFirstPass (khi : Word) (n : Nat) (p : Chain) : Chain :=
  risingPass (fun i q => chainStep .bwd i (upperOf khi n i q.1) q) n 0 p

theorem decodeFirstPass_counter (khi : Word) (n : Nat) (p : Chain) :
    (decodeFirstPass khi n p).2 = p.2 - BitVec.ofNat 32 n :=
  (decodeRising khi n n 0 p.1 p.2).1

/-- R135: the words between the passes are `E`. -/
theorem decodeFirstPass_read (khi : Word) {n : Nat} (p : Chain) {i : Nat} (hi : i < n) :
    (decodeFirstPass khi n p).1.read i = decodeMiddle khi p.2 n p.1.read i :=
  (decodeRising khi n n 0 p.1 p.2).2.1 i (Nat.zero_le i) (by omega)

theorem decodePasses_counter (klo khi : Word) (n : Nat) (p : Chain) :
    (decodePasses klo khi n p).2 = p.2 - BitVec.ofNat 32 (2 * n) := by
  have hfalling := (decodeFalling klo n (decodeFirstPass khi n p).1 (decodeFirstPass khi n p).2).1
  refine hfalling.trans ?_
  rw [decodeFirstPass_counter, count_down_add, Nat.two_mul]

/-- The second operand of DECODE's pass 2 is KLO or the word of `E` one down. -/
theorem lowerOf_decodeFirstPass (klo khi : Word) {n : Nat} (p : Chain) {i : Nat} (hi : i < n) :
    lowerOf klo i (decodeFirstPass khi n p).1 = if i = 0 then klo else decodeMiddle khi p.2 n p.1.read (i - 1) := by
  unfold lowerOf
  rw [decodeFirstPass_read khi p (by omega)]

/-- R137: the words after the passes are `P`; the counter of step `i` of pass 2 is `C2 - 2N + i`. -/
theorem decodePasses_read (klo khi : Word) {n : Nat} (p : Chain) {i : Nat} (hi : i < n) :
    (decodePasses klo khi n p).1.read i = decodeFinal klo p.2 n (decodeMiddle khi p.2 n p.1.read) i := by
  have hcount : (decodeFirstPass khi n p).2 - BitVec.ofNat 32 (n - i) =
      p.2 - BitVec.ofNat 32 (2 * n) + BitVec.ofNat 32 i := by
    rw [decodeFirstPass_counter, count_down_add, count_down_up _ _ i, show n + (n - i) + i = 2 * n by omega]
  have hfalling := (decodeFalling klo n (decodeFirstPass khi n p).1 (decodeFirstPass khi n p).2).2.1 i hi
  rw [decodeFirstPass_read khi p hi, lowerOf_decodeFirstPass klo khi p hi, hcount] at hfalling
  exact hfalling

/-- R133: the unwrap gives `C2`. -/
theorem foldTwo_eq_unwrapped (klo khi c f0 : Word) : foldTwo c f0 (keyProduct klo khi) = unwrapped klo khi c f0 :=
  foldTwo_eq ..

/-- The decode transform is its two passes from `C2`. -/
theorem decodeChain_eq (klo khi : Word) (n : Nat) (p : Chain) :
    decodeChain klo khi n p = decodePasses klo khi n (p.1, unwrapped klo khi p.2 (p.1.read 0)) := by
  rw [decodeChain, foldTwo_eq_unwrapped]

theorem exec_decode {s : State} (hp : s.phase = .idle) (h0 : s.len ≠ 0#32) (hl : s.len.toNat ≤ s.cfg.maxLen) :
    exec (.decode true true true) s = .next
      { s with
        blk := (decodeChain s.klo s.khi s.len.toNat (s.blk, s.iv)).1
        iv := (decodeChain s.klo s.khi s.len.toNat (s.blk, s.iv)).2
        code := 0#3
        t := 2#32
        idx := 0#32
        cmdr := 0xF#4 } :=
  runCommand_of_success hp hl (firstFailure_eq_none.mpr ⟨rfl, rfl, rfl, h0⟩)

/-- Settles O31: the closed forms of the two passes, from the counter the unwrap leaves. -/
theorem decodeClosedForm : Obligations.DecodeClosedForm := by
  intro s hp h0 hl
  refine ⟨_, exec_decode hp h0 hl, rfl, fun k hk => ?word, fun a ha => ?above, ?counter⟩
  case word => rw [decodeChain_eq]; exact decodePasses_read s.klo s.khi _ hk
  case above => exact decodeChain_read_of_le s.klo s.khi ha (s.blk, s.iv)
  case counter => rw [decodeChain_eq]; exact decodePasses_counter ..

/-- Settles O35: the closed form at LEN = 1, where the one word is both ends of each pass. -/
theorem decodeSingleBlock : Obligations.DecodeSingleBlock := by
  intro s hp h1 hmax
  have hn : s.len.toNat = 1 := congrArg BitVec.toNat h1
  obtain ⟨t, ht, -, hword, -, hiv⟩ := decodeClosedForm s hp (by rw [h1]; decide) (by omega)
  rw [hn] at hword hiv
  refine ⟨t, ht, (hword 0 one_pos).trans ?_, hiv⟩
  generalize unwrapped s.klo s.khi s.iv (s.blk.read 0) = c2
  have hfirst : c2 - 1#32 - BitVec.ofNat 32 0 = c2 - 1#32 := BitVec.sub_zero _
  have hsecond : c2 - BitVec.ofNat 32 (2 * 1) + BitVec.ofNat 32 0 = c2 - 2#32 := BitVec.add_zero _
  simp only [decodeFinal, decodeMiddle, if_true, hfirst, hsecond]

end Sys2Proof.Machine

/-! ### The round trips (R140, R141): each pass of one command undoes a pass of the other, last index first -/

namespace Sys2Proof.Machine

/-- The flavour that undoes a flavour (40_combine.md R93). -/
def Dir.inverse : Dir → Dir
  | .fwd => .bwd
  | .bwd => .fwd

theorem combine_inverse (d : Dir) (c a b : Word) :
    combine d.inverse (combine d c a b).2 (combine d c a b).1 b = (a, c) := by
  cases d with
  | fwd => exact backwardCombine_forwardCombine c a b
  | bwd => exact forwardCombine_backwardCombine c a b

theorem Chain.Agree.trans {n : Nat} {p q r : Chain} (h : Chain.Agree n p q) (h' : Chain.Agree n q r) :
    Chain.Agree n p r :=
  ⟨h.1.trans h'.1, fun a ha => (h.2 a ha).trans (h'.2 a ha)⟩

/-- An iteration of the other flavour with the same second operand undoes an iteration. -/
theorem chainStep_inverse (d : Dir) (n i : Nat) {b b' : Word} (hb : b' = b) (p : Chain) :
    Chain.Agree n (chainStep d.inverse i b' (chainStep d i b p)) p := by
  subst hb
  simp only [chainStep, Memory.read_write_same, combine_inverse]
  refine ⟨rfl, fun a _ => ?_⟩
  by_cases ha : a = i
  · rw [ha, Memory.read_write_same]
  · rw [Memory.read_write_other _ ha, Memory.read_write_other _ ha]

/-- An iteration does not write its lower neighbour. -/
theorem lowerStep_inverse (d : Dir) (klo : Word) (n i : Nat) (p : Chain) :
    Chain.Agree n
      (chainStep d.inverse i (lowerOf klo i (chainStep d i (lowerOf klo i p.1) p).1)
        (chainStep d i (lowerOf klo i p.1) p)) p :=
  chainStep_inverse d n i (lowerOf_congr fun h0 => Memory.read_write_other _ (by omega) _) p

/-- An iteration does not write its upper neighbour. -/
theorem upperStep_inverse (d : Dir) (khi : Word) (n i : Nat) (p : Chain) :
    Chain.Agree n
      (chainStep d.inverse i (upperOf khi n i (chainStep d i (upperOf khi n i p.1) p).1)
        (chainStep d i (upperOf khi n i p.1) p)) p :=
  chainStep_inverse d n i (upperOf_congr (Memory.read_write_other _ (by omega) _)) p

/-- The last iteration of a rising pass. -/
theorem risingPass_succ_last (body : Nat → Chain → Chain) (k i : Nat) (p : Chain) :
    risingPass body (k + 1) i p = body (i + k) (risingPass body k i p) := by
  induction k generalizing i p with
  | zero => rfl
  | succ k ih =>
    have hrest := ih (i + 1) (body i p)
    rw [show i + 1 + k = i + (k + 1) by omega] at hrest
    exact hrest

section

variable {f g : Nat → Chain → Chain} {n : Nat}

/-- A falling pass whose iterations undo those of a rising pass undoes the pass. -/
theorem fallingPass_undoes_risingPass
    (hg : ∀ i p q, i < n → Chain.Agree n p q → Chain.Agree n (g i p) (g i q))
    (hgf : ∀ i p, Chain.Agree n (g i (f i p)) p) {k : Nat} (hk : k ≤ n) (p : Chain) :
    Chain.Agree n (fallingPass g k (risingPass f k 0 p)) p := by
  induction k with
  | zero => exact ⟨rfl, fun _ _ => rfl⟩
  | succ k ih =>
    rw [risingPass_succ_last, Nat.zero_add]
    exact (fallingPass_agree hg (by omega) (hgf k _)).trans (ih (by omega))

/-- A rising pass whose iterations undo those of a falling pass undoes the pass. -/
theorem risingPass_undoes_fallingPass
    (hg : ∀ i p q, i < n → Chain.Agree n p q → Chain.Agree n (g i p) (g i q))
    (hgf : ∀ i p, Chain.Agree n (g i (f i p)) p) {k : Nat} (hk : k ≤ n) (p : Chain) :
    Chain.Agree n (risingPass g k 0 (fallingPass f k p)) p := by
  induction k generalizing p with
  | zero => exact ⟨rfl, fun _ _ => rfl⟩
  | succ k ih =>
    rw [risingPass_succ_last, Nat.zero_add]
    exact (hg k _ _ hk (ih (by omega) (f k p))).trans (hgf k p)

end

theorem decodePasses_encodePasses (klo khi : Word) (n : Nat) (p : Chain) :
    Chain.Agree n (decodePasses klo khi n (encodePasses klo khi n p)) p := by
  have hupper := risingPass_undoes_fallingPass (fun _ _ _ => upperStep_agree) (upperStep_inverse .fwd khi n) le_rfl
    (risingPass (fun i q => chainStep .fwd i (lowerOf klo i q.1) q) n 0 p)
  have hlower := fallingPass_undoes_risingPass (fun _ _ _ => lowerStep_agree) (lowerStep_inverse .fwd klo n) le_rfl p
  exact (fallingPass_agree (fun _ _ _ => lowerStep_agree) le_rfl hupper).trans hlower

theorem encodePasses_decodePasses (klo khi : Word) (n : Nat) (p : Chain) :
    Chain.Agree n (encodePasses klo khi n (decodePasses klo khi n p)) p := by
  have hlower := risingPass_undoes_fallingPass (fun _ _ _ => lowerStep_agree) (lowerStep_inverse .bwd klo n) le_rfl
    (risingPass (fun i q => chainStep .bwd i (upperOf khi n i q.1) q) n 0 p)
  have hupper := fallingPass_undoes_risingPass (fun _ _ _ => upperStep_agree) (upperStep_inverse .bwd khi n) le_rfl p
  exact (fallingPass_agree (fun _ _ _ => upperStep_agree) le_rfl hlower).trans hupper

/-- The unwrap of a wrap of the same two values gives the counter back. -/
theorem foldTwo_foldTwo (c x y : Word) : foldTwo (foldTwo c x y) y x = c := by
  rw [foldTwo_eq, foldTwo_eq]
  have hpairs : c ^^^ x ^^^ y ^^^ 1#32 ^^^ y ^^^ x ^^^ 1#32 = c ^^^ (x ^^^ x) ^^^ (y ^^^ y) ^^^ (1#32 ^^^ 1#32) := by
    ac_rfl
  simp only [hpairs, BitVec.xor_self, BitVec.xor_zero]

/-- The unwrap reads the BLK[0] that the wrap read. -/
theorem decodeChain_encodeChain (klo khi : Word) (n : Nat) (p : Chain) :
    Chain.Agree n (decodeChain klo khi n (encodeChain klo khi n p)) p := by
  simp only [decodeChain, encodeChain, foldTwo_foldTwo]
  exact decodePasses_encodePasses klo khi n p

/-- The wrap reads BLK[0] as the passes of ENCODE have restored it. -/
theorem encodeChain_decodeChain (klo khi : Word) {n : Nat} (hn : 0 < n) (p : Chain) :
    Chain.Agree n (encodeChain klo khi n (decodeChain klo khi n p)) p := by
  obtain ⟨hcount, hword⟩ :=
    encodePasses_decodePasses klo khi n (p.1, foldTwo p.2 (p.1.read 0) (keyProduct klo khi))
  refine ⟨?_, hword⟩
  simp only [encodeChain, decodeChain, hcount, hword 0 hn, foldTwo_foldTwo]

/-- Two stores that agree below `n` and at and above `n` are read the same. -/
theorem Chain.Agree.read_eq {n : Nat} {p q : Chain} (h : Chain.Agree n p q)
    (hge : ∀ a, n ≤ a → p.1.read a = q.1.read a) (a : Nat) : p.1.read a = q.1.read a :=
  (Nat.lt_or_ge a n).elim (h.2 a) (hge a)

/-- Settles O32: the words of the sequence by the inverse passes, the words above it because no command writes them. -/
theorem encodeThenDecodeRestores : Obligations.EncodeThenDecodeRestores := by
  intro s hp h0 hl
  have hback := decodeChain_encodeChain s.klo s.khi s.len.toNat (s.blk, s.iv)
  refine ⟨_, _, exec_encode hp h0 hl, rfl, exec_decode hp h0 hl, rfl, hback.1, hback.read_eq fun a ha => ?_⟩
  exact (decodeChain_read_of_le s.klo s.khi ha _).trans (encodeChain_read_of_le s.klo s.khi ha _)

/-- Settles O33: the same with the two transforms the other way round. -/
theorem decodeThenEncodeRestores : Obligations.DecodeThenEncodeRestores := by
  intro s hp h0 hl
  have hback := encodeChain_decodeChain s.klo s.khi (zero_toNat_lt h0) (s.blk, s.iv)
  refine ⟨_, _, exec_decode hp h0 hl, exec_encode hp h0 hl, hback.1, hback.read_eq fun a ha => ?_⟩
  exact (encodeChain_read_of_le s.klo s.khi ha _).trans (decodeChain_read_of_le s.klo s.khi ha _)

end Sys2Proof.Machine

/-! ### The path of the two passes (R135, R137, R139) -/

namespace Sys2Proof.Machine

/-- What holds of a state after 0 steps, and after one step more wherever it holds below `m` steps, holds after any
number of steps up to `m`, none of which stops. -/
theorem exists_stepsFrom_of_step {P : Nat → State → Prop} {m : Nat} {s : State} (h0 : P 0 s)
    (hstep : ∀ k u, k < m → P k u → ∃ v, step u = .next v ∧ P (k + 1) v) {k : Nat} (hk : k ≤ m) :
    ∃ u, stepsFrom k s = .next u ∧ P k u := by
  induction k with
  | zero => exact ⟨s, rfl, h0⟩
  | succ k ih =>
    obtain ⟨u, hu, hPu⟩ := ih (by omega)
    obtain ⟨v, hv, hPv⟩ := hstep k u hk hPu
    exact ⟨v, (stepsFrom_append hu).trans (stepsFrom_succ 0 hv), hPv⟩

/-- Where DECODE's passes over the sequence of `s` are after `k` steps from DEC_P1 at 0, and what they keep. -/
structure DecodePathAt (s : State) (k : Nat) (u : State) : Prop where
  host : u.host = []
  len : u.len = s.len
  cfg : u.cfg = s.cfg
  t : u.t = s.t
  iv : u.iv = s.iv - BitVec.ofNat 32 k
  rising : k < s.len.toNat → u.phase = .decP1 ∧ u.idx.toNat = k ∧ u.code = s.code
  falling : s.len.toNat ≤ k → k < 2 * s.len.toNat →
    u.phase = .decP2 ∧ u.idx.toNat = 2 * s.len.toNat - 1 - k ∧ u.code = s.code
  done : k = 2 * s.len.toNat → u.phase = .idle ∧ u.code = Status.success.code

section

variable {s u : State} {k : Nat}

theorem DecodePathAt.start (hh : s.host = []) (hp : s.phase = .decP1) (hx : s.idx = 0#32) (h0 : s.len ≠ 0#32) :
    DecodePathAt s 0 s := by
  have hn : 0 < s.len.toNat := zero_toNat_lt h0
  exact ⟨hh, rfl, rfl, rfl, (BitVec.sub_zero s.iv).symm, fun _ => ⟨hp, congrArg BitVec.toNat hx, rfl⟩,
    fun _ _ => by omega, fun _ => by omega⟩

theorem DecodePathAt.step_rising (h : DecodePathAt s k u) (hk : k < s.len.toNat)
    (hl : s.len.toNat ≤ s.cfg.maxLen) : ∃ v, step u = .next v ∧ DecodePathAt s (k + 1) v := by
  obtain ⟨hp, hx, hc⟩ := h.rising hk
  have hn : u.len.toNat = s.len.toNat := congrArg BitVec.toNat h.len
  have hlen : s.len.toNat < 4294967296 := s.len.isLt
  have hiv : u.iv - 1#32 = s.iv - BitVec.ofNat 32 (k + 1) := by rw [h.iv]; exact count_down_add s.iv k 1
  refine ⟨_, (step_of_phase h.host hp).trans (exec_decP1 (by omega) (by rw [hn, h.cfg]; exact hl)),
    h.host, h.len, h.cfg, h.t, hiv, fun hr => ?up, fun hf _ => ?turn, fun hd => by omega⟩
  case up =>
    have hhigh : ¬u.idx.toNat + 1 = u.len.toNat := by omega
    have hnext : (u.idx + 1#32).toNat = k + 1 := by bv_omega
    exact ⟨if_neg hhigh, (congrArg BitVec.toNat (if_neg hhigh)).trans hnext, hc⟩
  case turn =>
    have hhigh : u.idx.toNat + 1 = u.len.toNat := by omega
    exact ⟨if_pos hhigh, (congrArg BitVec.toNat (if_pos hhigh)).trans (by omega), hc⟩

theorem DecodePathAt.step_falling (h : DecodePathAt s k u) (hk : s.len.toNat ≤ k) (hk2 : k < 2 * s.len.toNat)
    (hl : s.len.toNat ≤ s.cfg.maxLen) : ∃ v, step u = .next v ∧ DecodePathAt s (k + 1) v := by
  obtain ⟨hp, hx, hc⟩ := h.falling hk hk2
  have hn : u.len.toNat = s.len.toNat := congrArg BitVec.toNat h.len
  have hiv : u.iv - 1#32 = s.iv - BitVec.ofNat 32 (k + 1) := by rw [h.iv]; exact count_down_add s.iv k 1
  refine ⟨_, (step_of_phase h.host hp).trans (exec_decP2 (by omega) (by rw [hn, h.cfg]; exact hl)),
    h.host, h.len, h.cfg, h.t, hiv, fun hr => by omega, fun _ hf => ?down, fun hd => ?last⟩
  case down =>
    have hlow : ¬u.idx = 0#32 := by bv_omega
    have hnext : (u.idx - 1#32).toNat = 2 * s.len.toNat - 1 - (k + 1) := by bv_omega
    exact ⟨if_neg hlow, (congrArg BitVec.toNat (if_neg hlow)).trans hnext, (if_neg hlow).trans hc⟩
  case last =>
    have hlow : u.idx = 0#32 := by bv_omega
    exact ⟨if_pos hlow, if_pos hlow⟩

theorem DecodePathAt.exists_step (h : DecodePathAt s k u) (hk : k < 2 * s.len.toNat)
    (hl : s.len.toNat ≤ s.cfg.maxLen) : ∃ v, step u = .next v ∧ DecodePathAt s (k + 1) v := by
  rcases Nat.lt_or_ge k s.len.toNat with hlt | hge
  · exact h.step_rising hlt hl
  · exact h.step_falling hge hk hl

end

/-- Settles O41, by induction on the number of steps. -/
theorem decodePassPath : Obligations.DecodePassPath := by
  intro s k hh hp hx h0 hl hk
  obtain ⟨u, hu, hat⟩ :=
    exists_stepsFrom_of_step (DecodePathAt.start hh hp hx h0) (fun _ _ hlt hat => hat.exists_step hlt hl) hk
  exact ⟨u, hu, hat.iv, hat.t, hat.rising, hat.falling, hat.done⟩

end Sys2Proof.Machine

/-! The family 44_host_access.md: the host's transactions (R151 to R155, R158), the sequencer against the whole command
(R156, R157), host programs and the two calls (R159, R160), and the split of a key (R162). -/

/-! ### The transactions (R151 to R155), and their refusal while BUSY (R158; 93_implementation_defined.md U1) -/

namespace Sys2Proof.Machine

section

variable {s : State}

theorem whenInStore_of_lt {n : Word} (h : n.toNat < s.cfg.maxLen) (r : Result) : whenInStore s n r = r := if_pos h

theorem whenLengthFits_of_le (h : s.len.toNat ≤ s.cfg.maxLen) (r : Result) : whenLengthFits s r = r := if_pos h

theorem execRdb_of_lt (hp : s.phase = .idle) {n : Word} (hn : n.toNat < s.cfg.maxLen) :
    execRdb n s = .next (s.answer (.word (s.blk.read n.toNat))) :=
  (whenIdle_of_idle hp _).trans (whenInStore_of_lt hn _)

theorem execWrb_of_lt (hp : s.phase = .idle) {n : Word} (hn : n.toNat < s.cfg.maxLen) (v : Word) :
    execWrb n v s = .next (s.setWord n.toNat v) :=
  (whenIdle_of_idle hp _).trans (whenInStore_of_lt hn _)

theorem execWr_cmd_of_le (hp : s.phase = .idle) (hl : s.len.toNat ≤ s.cfg.maxLen) (v : Word) :
    execWr .cmd v s = .next (s.issue (v.setWidth 4)) :=
  (whenIdle_of_idle hp _).trans (whenLengthFits_of_le hl _)

theorem statusWord_of_idle (hp : s.phase = .idle) : s.statusWord = 0#1 ++ s.code := by
  simp [State.statusWord, State.busy, hp]

theorem statusWord_of_busy (hp : s.phase ≠ .idle) : s.statusWord = 1#1 ++ s.code := by
  simp [State.statusWord, State.busy, hp]

end

/-- Settles O22: each readable register's arm of RD is its answer behind the guard of IDLE, and STATUS has no guard. -/
theorem rdAnswers : Obligations.RdAnswers := by
  refine ⟨fun s => ⟨rfl, fun hp => ?_⟩, fun data => ⟨rfl, rfl⟩⟩
  exact ⟨whenIdle_of_idle hp _, whenIdle_of_idle hp _, whenIdle_of_idle hp _, whenIdle_of_idle hp _,
    whenIdle_of_idle hp _⟩

/-- Settles O24: a WR in IDLE is its register's update, and a WR to CMD the issue of bits 3:0. -/
theorem wrStores : Obligations.WrStores := by
  refine ⟨fun s v hp => ⟨whenIdle_of_idle hp _, whenIdle_of_idle hp _, whenIdle_of_idle hp _, whenIdle_of_idle hp _,
    fun hl => ?_, whenIdle_of_idle hp _⟩, fun data => ⟨rfl, rfl⟩⟩
  rw [← BitVec.setWidth_eq_extractLsb' (by decide)]
  exact execWr_cmd_of_le hp hl v

/-- Settles O25: past the guards of IDLE and of the store, RDB is the answer. -/
theorem rdbAnswers : Obligations.RdbAnswers := fun _ _ hp hn => execRdb_of_lt hp hn

/-- Settles O26: past the guards of IDLE and of the store, WRB is the write of one word. -/
theorem wrbStores : Obligations.WrbStores := by
  intro s n v hp hn
  exact ⟨_, execWrb_of_lt hp hn v, Memory.read_write_same .., fun a ha => Memory.read_write_other _ ha v, rfl⟩

/-- Settles O27: every host transition but RD STATUS stands behind the guard of IDLE. -/
theorem busyHostRefused : Obligations.BusyHostRefused := by
  intro s hp
  refine ⟨fun r hr => ?rd, fun _ _ => whenIdle_of_busy hp _, fun _ => whenIdle_of_busy hp _,
    fun _ _ => whenIdle_of_busy hp _, fun _ _ _ => whenIdle_of_busy hp _, fun _ _ _ => whenIdle_of_busy hp _,
    ?rdStatus⟩
  case rd =>
    cases r with
    | status => exact absurd rfl hr
    | klo | khi | iv | len | cmd => exact whenIdle_of_busy hp _
  case rdStatus =>
    rw [← statusWord_of_busy hp]
    rfl

end Sys2Proof.Machine

/-! ### The split of a 64-bit key (R162) -/

namespace Sys2Proof.Machine

theorem splitKey_low (raw : BitVec 64) : (splitKey raw).1.toNat = raw.toNat % 4294967296 :=
  BitVec.toNat_setWidth 32 raw

/-- The high part fits 32 bits, so the cut of the shifted key takes nothing away. -/
theorem splitKey_high (raw : BitVec 64) : (splitKey raw).2.toNat = raw.toNat / 4294967296 := by
  have hraw : raw.toNat < 18446744073709551616 := raw.isLt
  simp only [splitKey, BitVec.toNat_setWidth, BitVec.toNat_ushiftRight, Nat.shiftRight_eq_div_pow]
  omega

/-- Settles O55: quotient and remainder by 2^32. -/
theorem keySplitKeepsValue : Obligations.KeySplitKeepsValue := by
  intro raw
  refine ⟨splitKey_low raw, splitKey_high raw, ?_⟩
  rw [splitKey_low, splitKey_high, Nat.div_add_mod']

end Sys2Proof.Machine

/-! ### The sequencer against the whole command (R156, R157)

From each position of the sequencer the rest of the command is a function of the state, `final`, in a number of steps
that the state tells, `stepsLeft`. A step of the core keeps the first and counts the second down by one, so a run of
`stepsLeft` steps ends in `final`; right after a CMD write `final` is what the whole command answers. -/

namespace Sys2Proof.Machine

/-- The end of a command that leaves the store and counter `p`. -/
def State.completed (s : State) (p : Chain) (t idx : Word) : State :=
  { s with blk := p.1, iv := p.2, code := Status.success.code, t := t, phase := .idle, idx := idx }

/-- The end of an ENCODE whose passes leave `p`: the wrap is to come. -/
def State.wrapped (s : State) (p : Chain) (idx : Word) : State :=
  s.completed (p.1, foldTwo p.2 (keyProduct s.klo s.khi) (p.1.read 0)) 2#32 idx

/-- The phase of the rising pass of ENCODE or, with `op`, of DECODE. -/
def upPhase : Bool → Phase
  | false => .encP1
  | true => .decP1

/-- The phase of the falling pass. -/
def downPhase : Bool → Phase
  | false => .encP2
  | true => .decP2

/-- An iteration of the rising pass. -/
def State.upStep (s : State) : Bool → Nat → Chain → Chain
  | false => fun i p => chainStep .fwd i (lowerOf s.klo i p.1) p
  | true => fun i p => chainStep .bwd i (upperOf s.khi s.len.toNat i p.1) p

/-- An iteration of the falling pass. -/
def State.downStep (s : State) : Bool → Nat → Chain → Chain
  | false => fun i p => chainStep .fwd i (upperOf s.khi s.len.toNat i p.1) p
  | true => fun i p => chainStep .bwd i (lowerOf s.klo i p.1) p

/-- The end of a command whose passes leave `p`. -/
def State.passed (s : State) (p : Chain) : Bool → State
  | false => s.wrapped p 0#32
  | true => s.completed p s.t 0#32

/-- The end of a command from a position in its rising pass. -/
def State.finalUp (s : State) (op : Bool) : State :=
  s.passed (fallingPass (s.downStep op) s.len.toNat
    (risingPass (s.upStep op) (s.len.toNat - s.idx.toNat) s.idx.toNat (s.blk, s.iv))) op

/-- The end of a command from a position in its falling pass. -/
def State.finalDown (s : State) (op : Bool) : State :=
  s.passed (fallingPass (s.downStep op) (s.idx.toNat + 1) (s.blk, s.iv)) op

/-- The state in which the command in progress ends, from a position in phase `p`. -/
def State.finalFrom (s : State) : Phase → State
  | .idle => s
  | .validate =>
    match firstFailure (kpBit s.cmdr) (ipBit s.cmdr) (dpBit s.cmdr) s.len with
    | some x => s.raise x
    | none => s.completed
        ((if opBit s.cmdr then decodeChain else encodeChain) s.klo s.khi s.len.toNat (s.blk, s.iv)) 2#32 0#32
  | .encP1 => s.finalUp false
  | .encP2 => s.finalDown false
  | .encW0 => s.wrapped (s.blk, s.iv) s.idx
  | .encW1 => s.completed (s.blk, s.iv ^^^ s.blk.read 0 ^^^ s.t) (s.t + 1#32) s.idx
  | .decU0 => s.completed (decodeChain s.klo s.khi s.len.toNat (s.blk, s.iv)) 2#32 0#32
  | .decU1 => s.completed
      (decodePasses s.klo s.khi s.len.toNat (s.blk, s.iv ^^^ keyProduct s.klo s.khi ^^^ s.t)) (s.t + 1#32) 0#32
  | .decP1 => s.finalUp true
  | .decP2 => s.finalDown true

/-- The state in which the command in progress ends. -/
def State.final (s : State) : State := s.finalFrom s.phase

/-- How many steps the command in progress still takes, from a position in phase `p`. -/
def State.stepsLeftFrom (s : State) : Phase → Nat
  | .idle => 0
  | .validate => commandSteps s.cmdr s.len
  | .encP1 => s.len.toNat - s.idx.toNat + s.len.toNat + 2
  | .encP2 => s.idx.toNat + 3
  | .encW0 => 2
  | .encW1 => 1
  | .decU0 => 2 * s.len.toNat + 2
  | .decU1 => 2 * s.len.toNat + 1
  | .decP1 => s.len.toNat - s.idx.toNat + s.len.toNat
  | .decP2 => s.idx.toNat + 1

/-- How many steps the command in progress still takes. -/
def State.stepsLeft (s : State) : Nat := s.stepsLeftFrom s.phase

/-- `t` is one step nearer to the end of the command than `s`, which is the same. -/
def Advances (s t : State) : Prop := t.final = s.final ∧ t.stepsLeft + 1 = s.stepsLeft

/-- The core's step from phase `p` advances the command. -/
def StepAdvances (s : State) (p : Phase) : Prop := ∃ t, exec p.stepInstr s = .next t ∧ Advances s t

section

variable {s : State}

theorem final_of_phase {p : Phase} (hp : s.phase = p) : s.final = s.finalFrom p := congrArg s.finalFrom hp

theorem stepsLeft_of_phase {p : Phase} (hp : s.phase = p) : s.stepsLeft = s.stepsLeftFrom p :=
  congrArg s.stepsLeftFrom hp

theorem advances_of_phases {t : State} {p q : Phase} (hp : s.phase = p) (hq : t.phase = q)
    (hfinal : t.finalFrom q = s.finalFrom p) (hleft : t.stepsLeftFrom q + 1 = s.stepsLeftFrom p) : Advances s t :=
  ⟨(final_of_phase hq).trans (hfinal.trans (final_of_phase hp).symm),
    (congrArg (· + 1) (stepsLeft_of_phase hq)).trans (hleft.trans (stepsLeft_of_phase hp).symm)⟩

/-! #### Each step kind advances its command -/

theorem commandSteps_of_failure {w : BitVec 4} {len : Word} {x : Status}
    (hx : firstFailure (kpBit w) (ipBit w) (dpBit w) len = some x) : commandSteps w len = 1 := by
  simp [commandSteps, hx]

theorem commandSteps_of_success {w : BitVec 4} {len : Word}
    (hok : firstFailure (kpBit w) (ipBit w) (dpBit w) len = none) : commandSteps w len = 2 * len.toNat + 3 := by
  simp [commandSteps, hok]

theorem finalFrom_validate_of_failure {x : Status}
    (hx : firstFailure (kpBit s.cmdr) (ipBit s.cmdr) (dpBit s.cmdr) s.len = some x) :
    s.finalFrom .validate = s.raise x := by
  simp only [State.finalFrom, hx]

theorem finalFrom_validate_of_success
    (hok : firstFailure (kpBit s.cmdr) (ipBit s.cmdr) (dpBit s.cmdr) s.len = none) :
    s.finalFrom .validate = s.completed
      ((if opBit s.cmdr then decodeChain else encodeChain) s.klo s.khi s.len.toNat (s.blk, s.iv)) 2#32 0#32 := by
  simp only [State.finalFrom, hok]

theorem validate_advances (hp : s.phase = .validate) : StepAdvances s .validate := by
  cases hx : firstFailure (kpBit s.cmdr) (ipBit s.cmdr) (dpBit s.cmdr) s.len with
  | some x =>
    refine ⟨_, execValidate_of_failure hx, advances_of_phases hp rfl ?_ ?_⟩
    · exact (finalFrom_validate_of_failure hx).symm
    · exact (commandSteps_of_failure hx).symm
  | none =>
    have hfinal := finalFrom_validate_of_success hx
    have hsteps := commandSteps_of_success hx
    cases hop : opBit s.cmdr with
    | false =>
      rw [hop] at hfinal
      refine ⟨_, execValidate_of_encode hx hop, advances_of_phases (q := .encP1) hp rfl ?_ ?_⟩
      · exact Eq.trans rfl hfinal.symm
      · show s.len.toNat - 0 + s.len.toNat + 2 + 1 = commandSteps s.cmdr s.len
        omega
    | true =>
      rw [hop] at hfinal
      refine ⟨_, execValidate_of_decode hx hop, advances_of_phases (q := .decU0) hp rfl ?_ ?_⟩
      · exact Eq.trans rfl hfinal.symm
      · exact hsteps.symm

/-- A rising pass with an index left is one iteration and the rest. -/
theorem risingPass_of_lt (body : Nat → Chain → Chain) {i n : Nat} (h : i < n) (p : Chain) :
    risingPass body (n - i) i p = risingPass body (n - (i + 1)) (i + 1) (body i p) := by
  rw [show n - i = n - (i + 1) + 1 by omega]
  rfl

/-- Below the high end the next index is the number one up. -/
theorem toNat_add_one_of_lt {x n : Word} (h : x.toNat < n.toNat) : (x + 1#32).toNat = x.toNat + 1 := by
  bv_omega

/-- Above the low end the next index is the number one down. -/
theorem toNat_sub_one_add_one {x : Word} (h : x ≠ 0#32) : (x - 1#32).toNat + 1 = x.toNat := by
  bv_omega

/-- A step of the rising pass is one iteration and the move up. -/
theorem exec_upPhase (op : Bool) (hx : s.idx.toNat < s.len.toNat) (hl : s.len.toNat ≤ s.cfg.maxLen) :
    exec (upPhase op).stepInstr s = .next
      { s with
        blk := (s.upStep op s.idx.toNat (s.blk, s.iv)).1
        iv := (s.upStep op s.idx.toNat (s.blk, s.iv)).2
        phase := if s.idx.toNat + 1 = s.len.toNat then downPhase op else upPhase op
        idx := if s.idx.toNat + 1 = s.len.toNat then s.idx else s.idx + 1#32 } := by
  cases op with
  | false => exact exec_encP1 hx hl
  | true => exact exec_decP1 hx hl

/-- A step of the falling pass above index 0 is one iteration and the move down. -/
theorem exec_downPhase (op : Bool) (hx : s.idx.toNat < s.len.toNat) (hl : s.len.toNat ≤ s.cfg.maxLen)
    (hlow : s.idx ≠ 0#32) :
    exec (downPhase op).stepInstr s = .next
      { s with
        blk := (s.downStep op s.idx.toNat (s.blk, s.iv)).1
        iv := (s.downStep op s.idx.toNat (s.blk, s.iv)).2
        phase := downPhase op
        idx := s.idx - 1#32 } := by
  cases op with
  | false => refine (exec_encP2 hx hl).trans ?_; simp only [if_neg hlow]; rfl
  | true => refine (exec_decP2 hx hl).trans ?_; simp only [if_neg hlow]; rfl

theorem finalFrom_upPhase (s : State) (op : Bool) : s.finalFrom (upPhase op) = s.finalUp op := by
  cases op <;> rfl

theorem finalFrom_downPhase (s : State) (op : Bool) : s.finalFrom (downPhase op) = s.finalDown op := by
  cases op <;> rfl

/-- Beyond the passes ENCODE has the two steps of the wrap. -/
theorem stepsLeftFrom_upPhase (s : State) (op : Bool) :
    s.stepsLeftFrom (upPhase op) = s.len.toNat - s.idx.toNat + s.len.toNat + if op then 0 else 2 := by
  cases op <;> rfl

theorem stepsLeftFrom_downPhase (s : State) (op : Bool) :
    s.stepsLeftFrom (downPhase op) = s.idx.toNat + 1 + if op then 0 else 2 := by
  cases op <;> rfl

theorem upPhase_advances {op : Bool} (hp : s.phase = upPhase op) (hx : s.idx.toNat < s.len.toNat)
    (hl : s.len.toNat ≤ s.cfg.maxLen) : StepAdvances s (upPhase op) := by
  have hpass := risingPass_of_lt (s.upStep op) hx (s.blk, s.iv)
  refine ⟨_, exec_upPhase op hx hl, ?_⟩
  by_cases hhigh : s.idx.toNat + 1 = s.len.toNat
  · refine advances_of_phases (q := downPhase op) hp (if_pos hhigh) ?_ ?_
    · simp only [finalFrom_upPhase, finalFrom_downPhase, State.finalUp, State.finalDown, hpass, hhigh, if_true,
        Nat.sub_self]
      cases op <;> rfl
    · simp only [stepsLeftFrom_upPhase, stepsLeftFrom_downPhase, if_pos hhigh]
      omega
  · have hnext := toNat_add_one_of_lt hx
    refine advances_of_phases (q := upPhase op) hp (if_neg hhigh) ?_ ?_
    · simp only [finalFrom_upPhase, State.finalUp, hpass, if_neg hhigh, hnext]
      cases op <;> rfl
    · simp only [stepsLeftFrom_upPhase, if_neg hhigh, hnext]
      omega

theorem downPhase_advances {op : Bool} (hp : s.phase = downPhase op) (hx : s.idx.toNat < s.len.toNat)
    (hl : s.len.toNat ≤ s.cfg.maxLen) (hlow : s.idx ≠ 0#32) : StepAdvances s (downPhase op) := by
  have hnext := toNat_sub_one_add_one hlow
  refine ⟨_, exec_downPhase op hx hl hlow, advances_of_phases (q := downPhase op) hp rfl ?_ ?_⟩
  · simp only [finalFrom_downPhase, State.finalDown, hnext]
    cases op <;> rfl
  · simp only [stepsLeftFrom_downPhase, hnext]
    omega

theorem encP2_advances (hp : s.phase = .encP2) (hx : s.idx.toNat < s.len.toNat) (hl : s.len.toNat ≤ s.cfg.maxLen) :
    StepAdvances s .encP2 := by
  by_cases hlow : s.idx = 0#32
  · refine ⟨_, exec_encP2 hx hl, advances_of_phases (q := .encW0) hp (if_pos hlow) ?_ ?_⟩
    · simp only [State.finalFrom, State.finalDown, hlow, if_true]
      rfl
    · simp only [State.stepsLeftFrom, hlow]
      rfl
  · exact downPhase_advances (op := false) hp hx hl hlow

theorem decP2_advances (hp : s.phase = .decP2) (hx : s.idx.toNat < s.len.toNat) (hl : s.len.toNat ≤ s.cfg.maxLen) :
    StepAdvances s .decP2 := by
  by_cases hlow : s.idx = 0#32
  · refine ⟨_, exec_decP2 hx hl, advances_of_phases (q := .idle) hp (if_pos hlow) ?_ ?_⟩
    · simp only [State.finalFrom, State.finalDown, hlow, if_true]
      rfl
    · simp only [State.stepsLeftFrom, hlow]
      rfl
  · exact downPhase_advances (op := true) hp hx hl hlow

theorem encW0_advances (hp : s.phase = .encW0) : StepAdvances s .encW0 := by
  refine ⟨_, exec_encW0 s, advances_of_phases (q := .encW1) hp rfl ?_ rfl⟩
  simp only [State.finalFrom, State.wrapped, foldTwo_eq, keyProduct]
  rfl

theorem encW1_advances (hp : s.phase = .encW1) (h0 : 0 < s.cfg.maxLen) : StepAdvances s .encW1 :=
  ⟨_, exec_encW1 h0, advances_of_phases (q := .idle) hp rfl rfl rfl⟩

theorem decU0_advances (hp : s.phase = .decU0) (h0 : 0 < s.cfg.maxLen) : StepAdvances s .decU0 := by
  refine ⟨_, exec_decU0 h0, advances_of_phases (q := .decU1) hp rfl ?_ rfl⟩
  simp only [State.finalFrom, decodeChain, foldTwo_eq, keyProduct]
  rfl

theorem decU1_advances (hp : s.phase = .decU1) : StepAdvances s .decU1 := by
  refine ⟨_, exec_decU1 s, advances_of_phases (q := .decP1) hp rfl rfl ?_⟩
  show s.len.toNat - 0 + s.len.toNat + 1 = 2 * s.len.toNat + 1
  omega

/-- From every position of a command, inside the invariant's bounds, the core's step advances the command. -/
theorem stepAdvances (hb : s.phase ≠ .idle) (hc : s.CommandOk) (hq : s.SequencerOk) : StepAdvances s s.phase := by
  obtain ⟨hfit, henc, hdec⟩ := hc
  have hl : s.len.toNat ≤ s.cfg.maxLen := hfit hb
  have h0 : s.len ≠ 0#32 → 0 < s.cfg.maxLen := fun h => (zero_toNat_lt h).trans_le hl
  obtain ⟨hx, -⟩ := hq
  cases hp : s.phase with
  | idle => exact absurd hp hb
  | validate => exact validate_advances hp
  | encP1 => exact upPhase_advances (op := false) hp (hx (by rw [hp]; rfl)) hl
  | encP2 => exact encP2_advances hp (hx (by rw [hp]; rfl)) hl
  | encW0 => exact encW0_advances hp
  | encW1 => exact encW1_advances hp (h0 (henc (by rw [hp]; rfl)).2)
  | decU0 => exact decU0_advances hp (h0 (hdec (by rw [hp]; rfl)).2)
  | decU1 => exact decU1_advances hp
  | decP1 => exact upPhase_advances (op := true) hp (hx (by rw [hp]; rfl)) hl
  | decP2 => exact decP2_advances hp (hx (by rw [hp]; rfl)) hl

end

end Sys2Proof.Machine

/-! #### The run of a command in progress -/

namespace Sys2Proof.Machine

/-- With this input the core runs on while it is busy: nothing is left, or the host polls (30_encoding.md R85, WAIT). -/
def LetsCoreRun (es : List HostEvent) : Prop := es = [] ∨ ∃ rest, es = .wait :: rest

section

variable {s : State}

theorem step_of_busy (hh : LetsCoreRun s.host) (hb : s.phase ≠ .idle) : step s = exec s.phase.stepInstr s := by
  rcases hh with hh | ⟨rest, hh⟩
  · exact step_of_no_host hh
  · exact step_of_fetch (fetch_wait_of_busy hh hb) (decode_coreForm s)

/-- The commuting diagram, run to its end: after `stepsLeft` steps the state is `final`. -/
theorem stepsFrom_stepsLeft (hh : LetsCoreRun s.host) (hc : s.CommandOk) (hq : s.SequencerOk) :
    stepsFrom s.stepsLeft s = .next s.final := by
  generalize hk : s.stepsLeft = k
  induction k generalizing s with
  | zero =>
    by_cases hb : s.phase = .idle
    · rw [final_of_phase hb]; rfl
    · obtain ⟨t, -, -, hleft⟩ := stepAdvances hb hc hq
      omega
  | succ k ih =>
    have hb : s.phase ≠ .idle := fun hp => by
      rw [stepsLeft_of_phase hp] at hk
      cases hk
    obtain ⟨t, ht, hfinal, hleft⟩ := stepAdvances hb hc hq
    have hm := stepMove_of_exec ht
    obtain ⟨-, -, -, -, -, hhost, -⟩ := (CoreMove.step hm).keeps
    rw [stepsFrom_succ k ((step_of_busy hh hb).trans ht), ← hfinal]
    exact ih (hhost ▸ hh) (hm.commandOk hc) (hm.sequencerOk rfl hc hq) (by omega)

/-! #### How a command ends -/

/-- A command in progress ends with the status of a failed check, or past VALIDATE with Success (41_validator.md
R106). -/
theorem final_cases (hb : s.phase ≠ .idle) :
    (∃ x, s.phase = .validate ∧ s.final = s.raise x) ∨ ∃ p t i, s.final = s.completed p t i := by
  cases hp : s.phase <;> rw [final_of_phase hp]
  case idle => exact absurd hp hb
  case validate =>
    cases hx : firstFailure (kpBit s.cmdr) (ipBit s.cmdr) (dpBit s.cmdr) s.len with
    | some x => exact .inl ⟨x, rfl, finalFrom_validate_of_failure hx⟩
    | none => exact .inr ⟨_, _, _, finalFrom_validate_of_success hx⟩
  case encP1 | encP2 | encW0 | encW1 | decU0 | decU1 | decP1 | decP2 => exact .inr ⟨_, _, _, rfl⟩

/-- Either way the block is idle, and the model's own fields are kept. -/
theorem final_keeps (hb : s.phase ≠ .idle) :
    s.final.phase = .idle ∧ s.final.host = s.host ∧ s.final.cfg = s.cfg := by
  rcases final_cases hb with ⟨x, -, hf⟩ | ⟨p, t, i, hf⟩
  · rw [hf]; exact ⟨rfl, rfl, rfl⟩
  · rw [hf]; exact ⟨rfl, rfl, rfl⟩

theorem final_code (hb : s.phase ≠ .idle) (hv : s.phase ≠ .validate) : s.final.code = Status.success.code := by
  rcases final_cases hb with ⟨x, hp, -⟩ | ⟨p, t, i, hf⟩
  · exact absurd hp hv
  · rw [hf]; rfl

theorem commandSteps_le (w : BitVec 4) (len : Word) : commandSteps w len ≤ 2 * len.toNat + 3 := by
  unfold commandSteps
  split <;> omega

theorem stepsLeft_le (hq : s.SequencerOk) : s.stepsLeft ≤ 2 * s.len.toNat + 3 := by
  obtain ⟨hx, -⟩ := hq
  cases hp : s.phase <;> rw [stepsLeft_of_phase hp] <;> simp only [State.stepsLeftFrom]
  case validate => exact commandSteps_le s.cmdr s.len
  case encP2 | decP2 =>
    have := hx (by rw [hp]; rfl)
    omega
  case idle | encP1 | encW0 | encW1 | decU0 | decU1 | decP1 => omega

/-- Settles O43: the command in progress ends in `final` after `stepsLeft` steps. -/
theorem everyCommandCompletes : Obligations.EveryCommandCompletes := by
  rintro s ⟨-, hc, hq⟩ hh hb
  obtain ⟨t, -, -, hleft⟩ := stepAdvances hb hc hq
  exact ⟨s.stepsLeft, s.final, by omega, stepsLeft_le hq, stepsFrom_stepsLeft (.inl hh) hc hq,
    (final_keeps hb).1, final_code hb⟩

/-! #### From the CMD write on -/

/-- Right after its CMD write a command is in place: nothing but its length is asked. -/
theorem issue_commandOk (hl : s.len.toNat ≤ s.cfg.maxLen) (w : BitVec 4) : (s.issue w).CommandOk :=
  ⟨fun _ => hl, by simp [Phase.encoding], by simp [Phase.decoding]⟩

theorem issue_sequencerOk (s : State) (w : BitVec 4) : (s.issue w).SequencerOk := sequencerOk_of_neither rfl rfl

/-- `final` right after a CMD write is what the whole command answers (R157). -/
theorem exec_decodeCommand_eq_final (hp : s.phase = .idle) (hl : s.len.toNat ≤ s.cfg.maxLen) (w : BitVec 4) :
    exec (decodeCommand w) s = .next (s.issue w).final := by
  rw [exec_decodeCommand, final_of_phase (s.issue_phase w)]
  cases hx : firstFailure (kpBit w) (ipBit w) (dpBit w) s.len with
  | some x =>
    rw [runCommand_of_failure hp hl hx, finalFrom_validate_of_failure (s := s.issue w) hx]
    rfl
  | none =>
    rw [runCommand_of_success hp hl hx, finalFrom_validate_of_success (s := s.issue w) hx, State.completed,
      s.issue_cmdr, ← hp]
    rfl

theorem setWidth_setWidth_command (w : BitVec 4) : (w.setWidth 32).setWidth 4 = w :=
  BitVec.setWidth_setWidth_of_le w (by decide)

/-- A transaction at the head of the input runs its instruction on the rest of the input. -/
theorem step_transaction {hdr : BitVec 2} {addr data : Word} {i : Instr}
    (hd : decode (.host hdr addr data) = .ok i) (es : List HostEvent) :
    step (s.setHost (.transaction hdr addr data :: es)) = exec i (s.setHost es) :=
  step_of_fetch (fetch_transaction rfl) hd

/-- A CMD write at the head of the input issues the command. -/
theorem step_issue (hp : s.phase = .idle) (hl : s.len.toNat ≤ s.cfg.maxLen) (w : BitVec 4) (es : List HostEvent) :
    step (s.setHost (.transaction 0b01#2 4#32 (w.setWidth 32) :: es)) = .next ((s.issue w).setHost es) := by
  rw [step_transaction (i := .wr .cmd (w.setWidth 32)) rfl]
  refine (execWr_cmd_of_le (s := s.setHost es) hp hl _).trans ?_
  rw [setWidth_setWidth_command]
  rfl

theorem setHost_self {es : List HostEvent} (h : s.host = es) : s.setHost es = s := by
  rw [← h]; rfl

/-- From a CMD write to the end of the command the sequencer does what the whole command does. -/
theorem stepsFrom_command (hp : s.phase = .idle) (hh : s.host = []) (hl : s.len.toNat ≤ s.cfg.maxLen)
    (w : BitVec 4) :
    stepsFrom (1 + commandSteps w s.len) (s.setHost [.transaction 0b01#2 4#32 (w.setWidth 32)]) =
      exec (decodeCommand w) s := by
  have hissue := step_issue hp hl w []
  rw [setHost_self (s := s.issue w) hh] at hissue
  rw [Nat.add_comm, exec_decodeCommand_eq_final hp hl, stepsFrom_succ _ hissue]
  exact stepsFrom_stepsLeft (s := s.issue w) (.inl hh) (issue_commandOk hl w) (issue_sequencerOk s w)

end

theorem decodeCommand_commandWord : ∀ op kp ip dp : Bool,
    decodeCommand (commandWord op kp ip dp) = if op then .decode kp ip dp else .encode kp ip dp := by decide

/-- Settles O38: the run from the CMD write, for an ENCODE word. -/
theorem sequencerEqualsWholeEncode : Obligations.SequencerEqualsWholeEncode := by
  intro s kp ip dp hp hh hl
  exact (stepsFrom_command hp hh hl _).trans (by rw [decodeCommand_commandWord]; rfl)

/-- Settles O39: the run from the CMD write, for a DECODE word. -/
theorem sequencerEqualsWholeDecode : Obligations.SequencerEqualsWholeDecode := by
  intro s kp ip dp hp hh hl
  exact (stepsFrom_command hp hh hl _).trans (by rw [decodeCommand_commandWord]; rfl)

end Sys2Proof.Machine

/-! ### Host programs: a run that takes input at every step

The calls run the machine until its input is used up, the statements about host programs run it a number of steps.
`HostRun` is what both have in common. -/

namespace Sys2Proof.Machine

/-- `k` steps lead from one state to another, and each of them finds input left. -/
inductive HostRun : Nat → State → State → Prop
  | refl (s : State) : HostRun 0 s s
  | head {k : Nat} {s t u : State} (hs : s.host ≠ []) (h : step s = .next t) (hr : HostRun k t u) :
      HostRun (k + 1) s u

section

variable {s t u : State} {k m : Nat}

theorem HostRun.one (hs : s.host ≠ []) (h : step s = .next t) : HostRun 1 s t := .head hs h (.refl t)

theorem HostRun.trans (h : HostRun k s t) (h' : HostRun m t u) : HostRun (k + m) s u := by
  induction h with
  | refl s => rwa [Nat.zero_add]
  | head hs ht _ ih => rw [Nat.add_right_comm]; exact .head hs ht (ih h')

theorem HostRun.stepsFrom_eq (h : HostRun k s t) : stepsFrom k s = .next t := by
  induction h with
  | refl s => rfl
  | head _ ht _ ih => rw [stepsFrom_succ _ ht, ih]

theorem HostRun.runHost_eq (h : HostRun k s t) (fuel : Nat) : runHost (k + fuel) s = runHost fuel t := by
  induction h with
  | refl s => rw [Nat.zero_add]
  | head hs ht _ ih => rw [Nat.add_right_comm, runHost_step _ hs ht, ih]

theorem runEvents_of_hostRun {es : List HostEvent} {length : Word} (h : HostRun k (s.setHost es) t)
    (ht : t.host = []) (hk : k ≤ es.length + (2 * length.toNat + 3)) : runEvents es length s = .next t := by
  obtain ⟨fuel, hfuel⟩ := Nat.exists_eq_add_of_le hk
  rw [runEvents, hfuel, h.runHost_eq, runHost_done fuel ht]

/-- The core takes no input and makes none. -/
theorem host_nil_of_step (hs : s.host = []) (h : step s = .next t) : t.host = [] := by
  obtain ⟨-, -, -, -, -, hhost, -⟩ := (CoreMove.step (stepMove_of_exec (step_of_no_host hs ▸ h))).keeps
  rw [hhost, hs]

/-- A run of one more step that answers is a step that answers and then the run. -/
theorem run_succ_next (M : Host.Core) {k : Nat} {s t : M.State} (h : M.run (k + 1) s = .next t) :
    ∃ u, M.step s = .next u ∧ M.run k u = .next t := by
  simp only [Host.Core.run] at h
  cases hs : M.step s <;> rw [hs] at h
  case next u => exact ⟨u, rfl, h⟩
  case fault | refused => cases h

theorem stepsFrom_succ_next (h : stepsFrom (k + 1) s = .next t) :
    ∃ u, step s = .next u ∧ stepsFrom k u = .next t :=
  run_succ_next Sys2Proof.core h

theorem host_nil_of_stepsFrom (hs : s.host = []) (h : stepsFrom k s = .next t) : t.host = [] := by
  induction k generalizing s with
  | zero => cases h; exact hs
  | succ k ih =>
    obtain ⟨u, hu, h⟩ := stepsFrom_succ_next h
    exact ih (host_nil_of_step hs hu) h

/-- A run that leaves some input found input at every step. -/
theorem hostRun_of_stepsFrom (h : stepsFrom k s = .next t) (ht : t.host ≠ []) : HostRun k s t := by
  induction k generalizing s with
  | zero => cases h; exact .refl _
  | succ k ih =>
    have hs : s.host ≠ [] := fun hs => ht (host_nil_of_stepsFrom hs h)
    obtain ⟨u, hu, h⟩ := stepsFrom_succ_next h
    exact .head hs hu (ih h)

end

/-! #### Lines that take one step each -/

/-- With the lines in front of any further input, one step per line leads from `s` to `t`. -/
def RunsLines (lines : List HostLine) (s t : State) : Prop :=
  ∀ es, HostRun lines.length (s.setHost (hostProgram lines ++ es)) (t.setHost es)

section

variable {s t u : State} {l : HostLine} {ls ls' : List HostLine}

theorem RunsLines.nil (s : State) : RunsLines [] s s := fun es => .refl (s.setHost es)

theorem RunsLines.cons (h : ∀ es, step (s.setHost (l.event :: es)) = .next (t.setHost es)) (hr : RunsLines ls t u) :
    RunsLines (l :: ls) s u :=
  fun es => .head (List.cons_ne_nil _ _) (h _) (hr es)

theorem RunsLines.append (h : RunsLines ls s t) (h' : RunsLines ls' t u) : RunsLines (ls ++ ls') s u := by
  intro es
  rw [List.length_append, hostProgram, List.map_append, List.append_assoc]
  exact (h _).trans (h' es)

/-- WAIT on an idle machine is the read of STATUS with BUSY = 0. -/
theorem step_wait (hp : s.phase = .idle) (es : List HostEvent) :
    step (s.setHost (.wait :: es)) = .next ((s.answer (.status (0#1 ++ s.code))).setHost es) := by
  rw [← statusWord_of_idle hp]
  exact step_of_fetch (i := .rd .status) (fetch_wait_of_idle (s := s.setHost (.wait :: es)) rfl hp) rfl

section

variable (hp : s.phase = .idle) (es : List HostEvent)
include hp

theorem step_wr_klo (v : Word) :
    step (s.setHost ((HostLine.wr .klo v).event :: es)) = .next ((s.setKlo v).setHost es) :=
  (step_transaction (i := .wr .klo v) rfl es).trans (whenIdle_of_idle hp _)

theorem step_wr_khi (v : Word) :
    step (s.setHost ((HostLine.wr .khi v).event :: es)) = .next ((s.setKhi v).setHost es) :=
  (step_transaction (i := .wr .khi v) rfl es).trans (whenIdle_of_idle hp _)

theorem step_wr_iv (v : Word) :
    step (s.setHost ((HostLine.wr .iv v).event :: es)) = .next ((s.setIv v).setHost es) :=
  (step_transaction (i := .wr .iv v) rfl es).trans (whenIdle_of_idle hp _)

theorem step_wr_len (v : Word) :
    step (s.setHost ((HostLine.wr .len v).event :: es)) = .next ((s.setLen v).setHost es) :=
  (step_transaction (i := .wr .len v) rfl es).trans (whenIdle_of_idle hp _)

theorem step_rd_iv : step (s.setHost ((HostLine.rd .iv).event :: es)) = .next ((s.answer (.word s.iv)).setHost es) :=
  (step_transaction (i := .rd .iv) rfl es).trans (whenIdle_of_idle hp _)

theorem step_wrb {n : Word} (hn : n.toNat < s.cfg.maxLen) (v : Word) :
    step (s.setHost ((HostLine.wrb n v).event :: es)) = .next ((s.setWord n.toNat v).setHost es) :=
  (step_transaction (i := .wrb n v) rfl es).trans (execWrb_of_lt (s := s.setHost es) hp hn v)

theorem step_rdb {n : Word} (hn : n.toNat < s.cfg.maxLen) :
    step (s.setHost ((HostLine.rdb n).event :: es)) = .next ((s.answer (.word (s.blk.read n.toNat))).setHost es) :=
  (step_transaction (i := .rdb n) rfl es).trans (execRdb_of_lt (s := s.setHost es) hp hn)

end

/-- An index below a length is the number of its word. -/
theorem toNat_ofNat_of_lt {n : Nat} {length : Word} (h : n < length.toNat) : (BitVec.ofNat 32 n).toNat = n :=
  (BitVec.toNat_ofNat n 32).trans (Nat.mod_eq_of_lt (h.trans length.isLt))

theorem runsLines_writeBlocks (hp : s.phase = .idle) {length : Word} (hl : length.toNat ≤ s.cfg.maxLen)
    {n : Nat} {bs : List Word} (hn : n + bs.length ≤ length.toNat) :
    RunsLines (writeBlocks n bs) s { s with blk := Memory.writeFrom n bs s.blk } := by
  induction bs generalizing n s with
  | nil => exact .nil s
  | cons v bs ih =>
    rw [List.length_cons] at hn
    have hindex := toNat_ofNat_of_lt (show n < length.toNat by omega)
    have hrest := ih (s := s.setWord (BitVec.ofNat 32 n).toNat v) hp hl (n := n + 1) (by omega)
    rw [State.setWord, hindex] at hrest
    refine .cons (fun es => ?_) hrest
    rw [step_wrb hp es (by omega), State.setWord, hindex]

theorem runsLines_readBlocks (hp : s.phase = .idle) {length : Word} (hl : length.toNat ≤ s.cfg.maxLen)
    {n k : Nat} (hn : n + k ≤ length.toNat) :
    RunsLines (readBlocks n k) s
      { s with replies := ((List.range' n k).map fun i => Reply.word (s.blk.read i)).reverse ++ s.replies } := by
  induction k generalizing n s with
  | zero => exact .nil s
  | succ k ih =>
    have hindex := toNat_ofNat_of_lt (show n < length.toNat by omega)
    have hrest := ih (s := s.answer (.word (s.blk.read (BitVec.ofNat 32 n).toNat))) hp hl (n := n + 1) (by omega)
    rw [hindex] at hrest
    simp only [List.range'_succ, List.map_cons, List.reverse_cons, List.append_assoc, List.singleton_append]
    refine .cons (fun es => ?_) hrest
    rw [step_rdb hp es (by omega), hindex]

end

/-! #### The read-back (R159) -/

/-- What RD IV and RDB 0 .. n-1 add to the replies. -/
def State.readBackReplies (s : State) (n : Nat) : List Reply :=
  ((List.range n).map fun i => Reply.word (s.blk.read i)).reverse ++ (.word s.iv :: s.replies)

theorem runsLines_readBack {s : State} (hp : s.phase = .idle) {length : Word} (hl : length.toNat ≤ s.cfg.maxLen) :
    RunsLines (readBackLines length) s { s with replies := s.readBackReplies length.toNat } := by
  have hblocks := runsLines_readBlocks (s := s.answer (.word s.iv)) hp hl (n := 0) (Nat.zero_add _).le
  rw [← List.range_eq_range'] at hblocks
  exact .cons (fun es => step_rd_iv hp es) hblocks

theorem length_readBlocks (n k : Nat) : (readBlocks n k).length = k := by
  induction k generalizing n with
  | zero => rfl
  | succ k ih => exact congrArg (· + 1) (ih (n + 1))

theorem length_readBackLines (length : Word) : (readBackLines length).length = length.toNat + 1 :=
  congrArg (· + 1) (length_readBlocks 0 length.toNat)

theorem hostRun_readBack {s : State} (hp : s.phase = .idle) (hh : s.host = []) {length : Word}
    (hl : length.toNat ≤ s.cfg.maxLen) :
    HostRun (length.toNat + 1) (s.setHost (hostProgram (readBackLines length)))
      { s with replies := s.readBackReplies length.toNat } := by
  have h := runsLines_readBack hp hl []
  rwa [List.append_nil, length_readBackLines,
    setHost_self (s := { s with replies := s.readBackReplies length.toNat }) hh] at h

/-- Settles O54: RD IV and then one RDB for each index, each one step. -/
theorem readBackReturnsResults : Obligations.ReadBackReturnsResults :=
  fun _ _ hp hh hl => (hostRun_readBack hp hh hl).stepsFrom_eq

end Sys2Proof.Machine

/-! ### The two calls (R159, R160) -/

namespace Sys2Proof.Machine

/-! #### A call's writes -/

/-- A call's write of the key. -/
def keyLines : Option (Word × Word) → List HostLine
  | some k => [.wr .klo k.1, .wr .khi k.2]
  | none => []

/-- A call's write of the counter. -/
def ivLines : Option Word → List HostLine
  | some v => [.wr .iv v]
  | none => []

/-- A call's writes of the blocks. -/
def blockLines (length : Word) : Option (List Word) → List HostLine
  | some bs => writeBlocks 0 (bs.take length.toNat)
  | none => []

/-- All a call writes before its command. -/
def CallArgs.loadLines (a : CallArgs) : List HostLine :=
  keyLines a.key ++ ivLines a.iv ++ [HostLine.wr .len a.length] ++ blockLines a.length a.blocks

/-- The command word of a call. -/
def CallArgs.word (op : Bool) (a : CallArgs) : BitVec 4 :=
  commandWord op a.key.isSome a.iv.isSome a.blocks.isSome

theorem command_eq (op : Bool) (a : CallArgs) : a.command op = decodeCommand (a.word op) :=
  (decodeCommand_commandWord ..).symm

/-- The line of a call's command. -/
def CallArgs.commandLine (op : Bool) (a : CallArgs) : HostLine :=
  if op then .decodeList a.key.isSome a.iv.isSome a.blocks.isSome
  else .encodeList a.key.isSome a.iv.isSome a.blocks.isSome

/-- It spells a write of the call's command word to CMD (30_encoding.md R86). -/
theorem commandLine_event (op : Bool) (a : CallArgs) :
    (a.commandLine op).event = .transaction 0b01#2 4#32 ((a.word op).setWidth 32) := by
  cases op <;> rfl

theorem callLines_eq (op : Bool) (a : CallArgs) :
    callLines op a = a.loadLines ++ [a.commandLine op] ++ [HostLine.wait] := rfl

/-- A call's events are its writes, the write of its command word to CMD, and WAIT. -/
theorem callEvents_eq (op : Bool) (a : CallArgs) :
    callEvents op a =
      hostProgram a.loadLines ++ [HostEvent.transaction 0b01#2 4#32 ((a.word op).setWidth 32), HostEvent.wait] := by
  rw [← commandLine_event, callEvents, callLines_eq, List.append_assoc, hostProgram, List.map_append]
  rfl

section

variable {s : State}

theorem runsLines_keyLines (hp : s.phase = .idle) (key : Option (Word × Word)) :
    RunsLines (keyLines key) s
      ((s.setKlo ((key.map Prod.fst).getD s.klo)).setKhi ((key.map Prod.snd).getD s.khi)) := by
  cases key with
  | none => exact .nil s
  | some k => exact .cons (step_wr_klo hp · k.1) (.cons (step_wr_khi (s := s.setKlo k.1) hp · k.2) (.nil _))

theorem runsLines_ivLines (hp : s.phase = .idle) (iv : Option Word) :
    RunsLines (ivLines iv) s (s.setIv (iv.getD s.iv)) := by
  cases iv with
  | none => exact .nil s
  | some v => exact .cons (step_wr_iv hp · v) (.nil _)

theorem runsLines_blockLines (hp : s.phase = .idle) {length : Word} (hl : length.toNat ≤ s.cfg.maxLen)
    (blocks : Option (List Word)) :
    RunsLines (blockLines length blocks) s
      { s with blk := Memory.writeFrom 0 ((blocks.getD []).take length.toNat) s.blk } := by
  cases blocks with
  | none => rw [Option.getD_none, List.take_nil]; exact .nil s
  | some bs => exact runsLines_writeBlocks hp hl (by simp)

/-- The writes of a call load the operands it supplies. -/
theorem runsLines_loadLines (hp : s.phase = .idle) (a : CallArgs) (hl : a.length.toNat ≤ s.cfg.maxLen) :
    RunsLines a.loadLines s (a.load s) := by
  have hoperands := (runsLines_keyLines hp a.key).append (runsLines_ivLines (by exact hp) a.iv)
  have hlength := hoperands.append (.cons (step_wr_len (by exact hp) · a.length) (.nil _))
  exact hlength.append (runsLines_blockLines (by exact hp) (by exact hl) a.blocks)

end

/-! #### The command of a call, and its WAIT -/

/-- The state the whole command answers on the operands a call supplies. -/
def CallArgs.ended (op : Bool) (a : CallArgs) (s : State) : State := ((a.load s).issue (a.word op)).final

/-- The end of a command does not depend on the input, and leaves it. -/
theorem final_setHost (s : State) (es : List HostEvent) : (s.setHost es).final = s.final.setHost es := by
  cases hp : s.phase <;>
    rw [final_of_phase hp, final_of_phase (s := s.setHost es) hp]
  case validate =>
    cases hx : firstFailure (kpBit s.cmdr) (ipBit s.cmdr) (dpBit s.cmdr) s.len with
    | some x => rw [finalFrom_validate_of_failure hx, finalFrom_validate_of_failure (s := s.setHost es) hx]; rfl
    | none => rw [finalFrom_validate_of_success hx, finalFrom_validate_of_success (s := s.setHost es) hx]; rfl
  case idle | encP1 | encP2 | encW0 | encW1 | decU0 | decU1 | decP1 | decP2 => rfl

theorem opBit_commandWord : ∀ op kp ip dp : Bool, opBit (commandWord op kp ip dp) = op := by decide

section

variable (op : Bool) (a : CallArgs) {s : State}

theorem ended_keeps (s : State) :
    (a.ended op s).phase = .idle ∧ (a.ended op s).host = s.host ∧ (a.ended op s).cfg = s.cfg :=
  final_keeps (s := (a.load s).issue (a.word op)) (by rw [State.issue_phase]; decide)

theorem exec_command (hp : s.phase = .idle) (hl : a.length.toNat ≤ s.cfg.maxLen) :
    exec (a.command op) (a.load s) = .next (a.ended op s) := by
  rw [command_eq]
  exact exec_decodeCommand_eq_final (s := a.load s) hp hl (a.word op)

variable {op a}

theorem ended_of_failure {x : Status}
    (hx : firstFailure a.key.isSome a.iv.isSome a.blocks.isSome a.length = some x) :
    a.ended op s = ((a.load s).issue (a.word op)).raise x := by
  refine (final_of_phase (State.issue_phase ..)).trans (finalFrom_validate_of_failure ?_)
  simpa [CallArgs.word, CallArgs.load] using hx

theorem ended_of_success (hx : firstFailure a.key.isSome a.iv.isSome a.blocks.isSome a.length = none) :
    a.ended op s = ((a.load s).issue (a.word op)).completed
      ((if op then decodeChain else encodeChain) (a.load s).klo (a.load s).khi a.length.toNat
        ((a.load s).blk, (a.load s).iv)) 2#32 0#32 := by
  refine (final_of_phase (State.issue_phase ..)).trans ((finalFrom_validate_of_success ?_).trans ?_)
  · simpa [CallArgs.word, CallArgs.load] using hx
  · rw [State.issue_cmdr, CallArgs.word, opBit_commandWord]
    rfl

theorem ended_code_of_failure {x : Status}
    (hx : firstFailure a.key.isSome a.iv.isSome a.blocks.isSome a.length = some x) : (a.ended op s).code = x.code := by
  rw [ended_of_failure hx]
  rfl

theorem ended_code_of_success (hx : firstFailure a.key.isSome a.iv.isSome a.blocks.isSome a.length = none) :
    (a.ended op s).code = Status.success.code := by
  rw [ended_of_success hx]
  rfl

variable (op a)

/-- The events of a call: its writes, one step each, the CMD write, the steps of the command, and the read of STATUS
that WAIT becomes. -/
theorem hostRun_callEvents (hp : s.phase = .idle) (hh : s.host = []) (hl : a.length.toNat ≤ s.cfg.maxLen) :
    ∃ k, k ≤ (callEvents op a).length + (2 * a.length.toNat + 3) ∧
      HostRun k (s.setHost (callEvents op a))
        ((a.ended op s).answer (.status (0#1 ++ (a.ended op s).code))) := by
  rw [callEvents_eq]
  obtain ⟨hidle, hhost, -⟩ := ended_keeps op a s
  have hload := runsLines_loadLines hp a hl [.transaction 0b01#2 4#32 ((a.word op).setWidth 32), .wait]
  have hissue := HostRun.one (List.cons_ne_nil _ _) (step_issue (s := a.load s) hp hl (a.word op) [.wait])
  have hrun := stepsFrom_stepsLeft (s := ((a.load s).issue (a.word op)).setHost [.wait]) (.inr ⟨[], rfl⟩)
    (issue_commandOk (s := a.load s) hl (a.word op)) (issue_sequencerOk (a.load s) (a.word op))
  rw [final_setHost] at hrun
  have hcommand := hostRun_of_stepsFrom hrun (List.cons_ne_nil _ _)
  have hwait := HostRun.one (List.cons_ne_nil _ _) (step_wait hidle [])
  rw [setHost_self (s := (a.ended op s).answer _) (hhost.trans hh)] at hwait
  refine ⟨_, ?_, hload.trans (hissue.trans (hcommand.trans hwait))⟩
  have hsteps : (((a.load s).issue (a.word op)).setHost [.wait]).stepsLeft ≤ 2 * a.length.toNat + 3 :=
    commandSteps_le (a.word op) a.length
  simp only [hostProgram, List.length_append, List.length_map, List.length_cons, List.length_nil]
  omega

end

/-- Settles O53: the call's events, as a number of steps. -/
theorem callRunsItsCommand : Obligations.CallRunsItsCommand := by
  intro op a s hp hh hl
  obtain ⟨k, -, hrun⟩ := hostRun_callEvents op a hp hh hl
  exact ⟨k, a.ended op s, exec_command op a hp hl, hrun.stepsFrom_eq⟩

end Sys2Proof.Machine

/-! ### What a call hands back (R159, R160) -/

namespace Sys2Proof.Machine

theorem firstFailure_ne_success (kp ip dp : Bool) (len : Word) : firstFailure kp ip dp len ≠ some .success := by
  unfold firstFailure
  split_ifs <;> simp

theorem filterMap_map_word {α : Type} (f : α → Word) (l : List α) :
    (l.map fun i => Reply.word (f i)).filterMap Reply.word? = l.map f := by
  simp [List.filterMap_map, Function.comp_def, Reply.word?]

/-- The words read back, the oldest first: IV and then the blocks. -/
theorem wordsRead_readBack {s t : State} {n : Nat} (h : t.replies = s.readBackReplies n) :
    t.wordsRead (n + 1) = s.iv :: (List.range n).map s.blk.read := by
  rw [State.wordsRead, h, State.readBackReplies, List.append_cons, List.take_left' (by simp), List.reverse_append,
    List.reverse_reverse]
  exact congrArg (s.iv :: ·) (filterMap_map_word s.blk.read (List.range n))

/-- The call's variables after a read-back of `n` blocks. -/
theorem readBack_words (a : CallArgs) (s : State) (n : Nat) :
    a.readBack (s.iv :: (List.range n).map s.blk.read) =
      { a with
        iv := some s.iv
        blocks := a.blocks.map fun bs => (List.range n).map s.blk.read ++ bs.drop n } := by
  rw [CallArgs.readBack, List.length_map, List.length_range]

section

variable {op : Bool} {a : CallArgs} {s : State}

/-- A call up to WAIT: the whole command's end, with STATUS as the newest reply. -/
theorem runEvents_callEvents (hp : s.phase = .idle) (hh : s.host = []) (hl : a.length.toNat ≤ s.cfg.maxLen) :
    runEvents (callEvents op a) a.length s =
      .next ((a.ended op s).answer (.status (0#1 ++ (a.ended op s).code))) := by
  obtain ⟨k, hk, hrun⟩ := hostRun_callEvents op a hp hh hl
  obtain ⟨-, hhost, -⟩ := ended_keeps op a s
  exact runEvents_of_hostRun hrun (hhost.trans hh) hk

theorem runEvents_readBack (hp : s.phase = .idle) (hh : s.host = []) {length : Word}
    (hl : length.toNat ≤ s.cfg.maxLen) :
    runEvents (hostProgram (readBackLines length)) 0#32 s =
      .next { s with replies := s.readBackReplies length.toNat } := by
  refine runEvents_of_hostRun (hostRun_readBack hp hh hl) hh ?_
  rw [hostProgram, List.length_map, length_readBackLines]
  omega

/-- After an answer of STATUS with the code of Success, an idle host reads back. -/
theorem finishCall_readBack (hp : s.phase = .idle) (hh : s.host = []) (hl : a.length.toNat ≤ s.cfg.maxLen)
    (hs : s.reportedStatus = some .success) :
    finishCall a s = .next
      ⟨some .success,
        { a with
          iv := some s.iv
          blocks := a.blocks.map fun bs => (List.range a.length.toNat).map s.blk.read ++ bs.drop a.length.toNat },
        { s with replies := s.readBackReplies a.length.toNat }⟩ := by
  rw [finishCall_success hs, runEvents_readBack hp hh hl, thenCall_next, wordsRead_readBack rfl, readBack_words]

theorem runCall_of_failure (hp : s.phase = .idle) (hh : s.host = []) (hl : a.length.toNat ≤ s.cfg.maxLen)
    {x : Status} (hx : firstFailure a.key.isSome a.iv.isSome a.blocks.isSome a.length = some x) :
    runCall op a s = .next ⟨some x, a, (a.ended op s).answer (.status (0#1 ++ x.code))⟩ := by
  have hs : ((a.ended op s).answer (.status (0#1 ++ x.code))).reportedStatus = some x := reportedStatus_of_wait rfl
  have hne : some x ≠ some Status.success := fun h => firstFailure_ne_success _ _ _ _ (hx.trans h)
  rw [runCall, runEvents_callEvents hp hh hl, ended_code_of_failure hx, thenCall_next,
    finishCall_failed (hs ▸ hne), hs]

theorem runCall_of_success (hp : s.phase = .idle) (hh : s.host = []) (hl : a.length.toNat ≤ s.cfg.maxLen)
    (hx : firstFailure a.key.isSome a.iv.isSome a.blocks.isSome a.length = none) :
    runCall op a s = .next
      ⟨some .success,
        { a with
          iv := some (a.ended op s).iv
          blocks := a.blocks.map fun bs =>
            (List.range a.length.toNat).map (a.ended op s).blk.read ++ bs.drop a.length.toNat },
        { a.ended op s with
          replies := ((a.ended op s).answer (.status 0#4)).readBackReplies a.length.toNat }⟩ := by
  obtain ⟨hidle, hhost, hcfg⟩ := ended_keeps op a s
  rw [runCall, runEvents_callEvents hp hh hl, ended_code_of_success hx, thenCall_next]
  exact finishCall_readBack (s := (a.ended op s).answer (.status 0#4)) hidle (hhost.trans hh) (hcfg.symm ▸ hl)
    (reportedStatus_of_wait (x := .success) rfl)

theorem call_eq_runCall (op : Bool) (a : CallArgs) (s : State) :
    (if op then decodeCall a s else encodeCall a s) = runCall op a s := by
  cases op <;> rfl

end

/-- Settles O56: the validator's outcome decides which way the call goes after WAIT. -/
theorem callReturnsStatusAndResults : Obligations.CallReturnsStatusAndResults := by
  intro op a s hp hh hl
  refine ⟨a.ended op s, exec_command op a hp hl, ?_⟩
  rw [call_eq_runCall]
  cases hx : firstFailure a.key.isSome a.iv.isSome a.blocks.isSome a.length with
  | some x => exact runCall_of_failure hp hh hl hx
  | none => exact runCall_of_success hp hh hl hx

end Sys2Proof.Machine

/-! ### decode() of what an encode() call left (R160; 43_decoder.md R140) -/

namespace Sys2Proof.Machine

section

variable (op : Bool) (key : Word × Word) (v : Word) (bs : List Word) (length : Word)

/-- The store and the counter that a call with every operand leaves, from the store it finds. -/
def callChain (m : Memory) : Chain :=
  (if op then decodeChain else encodeChain) key.1 key.2 length.toNat (Memory.writeFrom 0 (bs.take length.toNat) m, v)

/-- What the caller's array holds after the read-back of a store. -/
def readBackBlocks (m : Memory) : List Word := (List.range length.toNat).map m.read ++ bs.drop length.toNat

variable {length}

theorem firstFailure_full (h0 : length ≠ 0#32) : firstFailure true true true length = none :=
  firstFailure_eq_none.mpr ⟨rfl, rfl, rfl, h0⟩

theorem ended_full (s : State) (h0 : length ≠ 0#32) :
    (CallArgs.ended op ⟨some key, some v, some bs, length⟩ s).blk = (callChain op key v bs length s.blk).1 ∧
      (CallArgs.ended op ⟨some key, some v, some bs, length⟩ s).iv = (callChain op key v bs length s.blk).2 := by
  rw [ended_of_success (a := ⟨some key, some v, some bs, length⟩) (firstFailure_full h0)]
  exact ⟨rfl, rfl⟩

/-- A call with every operand and a length returns Success, hands back what its chain left, and leaves the block
idle. -/
theorem exists_runCall_full {s : State} (hp : s.phase = .idle) (hh : s.host = []) (h0 : length ≠ 0#32)
    (hl : length.toNat ≤ s.cfg.maxLen) :
    ∃ q : State, runCall op ⟨some key, some v, some bs, length⟩ s = .next
        ⟨some .success,
          ⟨some key, some (callChain op key v bs length s.blk).2,
            some (readBackBlocks bs length (callChain op key v bs length s.blk).1), length⟩, q⟩ ∧
      q.phase = .idle ∧ q.host = [] ∧ q.cfg = s.cfg := by
  obtain ⟨hblk, hiv⟩ := ended_full op key v bs s h0
  obtain ⟨hidle, hhost, hcfg⟩ := ended_keeps op ⟨some key, some v, some bs, length⟩ s
  rw [← hblk, ← hiv]
  exact ⟨_, runCall_of_success hp hh hl (firstFailure_full h0), hidle, hhost.trans hh, hcfg⟩

end

/-- The words of a list written from index 0 are read back. -/
theorem read_writeFrom_zero (bs : List Word) (m : Memory) {i : Nat} (hi : i < bs.length) :
    (Memory.writeFrom 0 bs m).read i = bs[i] := by
  rw [Memory.read_writeFrom, dif_pos ⟨Nat.zero_le i, hi⟩]
  rfl

section

variable {bs : List Word} {length : Word}

/-- Writing the words read back from a store makes a store that agrees with it. -/
theorem writeFrom_readBackBlocks_agree (bs : List Word) (length : Word) (m m' : Memory) (c : Word) :
    Chain.Agree length.toNat
      (Memory.writeFrom 0 ((readBackBlocks bs length m).take length.toNat) m', c) (m, c) := by
  have htake : (readBackBlocks bs length m).take length.toNat = (List.range length.toNat).map m.read :=
    List.take_left' (by simp)
  refine ⟨rfl, fun i hi => ?_⟩
  rw [htake, read_writeFrom_zero _ _ (by simpa using hi)]
  simp

/-- Reading back a store that holds the array's first values gives the array. -/
theorem readBackBlocks_eq (hb : length.toNat ≤ bs.length) {m m' : Memory}
    (h : ∀ i, i < length.toNat → m.read i = (Memory.writeFrom 0 (bs.take length.toNat) m').read i) :
    readBackBlocks bs length m = bs := by
  have hwords : (List.range length.toNat).map m.read = bs.take length.toNat := by
    refine List.ext_getElem (by simpa using hb) fun i hi hi' => ?_
    rw [List.getElem_map, List.getElem_range, h i (by simpa using hi), read_writeFrom_zero _ _ hi']
  rw [readBackBlocks, hwords, List.take_append_drop]

theorem drop_readBackBlocks (bs : List Word) (length : Word) (m : Memory) :
    (readBackBlocks bs length m).drop length.toNat = bs.drop length.toNat :=
  List.drop_left' (by simp)

end

/-- Settles O57: the decode call loads the words and the counter that the encode call left, so its chain gives back
those that the encode call loaded. -/
theorem encodeCallThenDecodeCall : Obligations.EncodeCallThenDecodeCall := by
  intro key v bs length s hp hh h0 hl hb
  obtain ⟨r, hr, hrp, hrh, hrc⟩ := exists_runCall_full false key v bs hp hh h0 hl
  generalize hsent : callChain false key v bs length s.blk = sent at hr
  obtain ⟨q, hq, -⟩ := exists_runCall_full true key sent.2 (readBackBlocks bs length sent.1) hrp hrh h0 (hrc ▸ hl)
  generalize hgot : callChain true key sent.2 (readBackBlocks bs length sent.1) length r.blk = got at hq
  have hback : Chain.Agree length.toNat got (Memory.writeFrom 0 (bs.take length.toNat) s.blk, v) := by
    rw [← hgot]
    refine (decodeChain_agree key.1 key.2 _ _ _ (zero_toNat_lt h0)
      (writeFrom_readBackBlocks_agree bs length sent.1 r.blk sent.2)).trans ?_
    rw [← hsent]
    exact decodeChain_encodeChain key.1 key.2 _ _
  obtain ⟨hiv, hwords⟩ := hback
  refine ⟨_, _, hr, rfl, hq, rfl, ?_⟩
  have hblocks : readBackBlocks (readBackBlocks bs length sent.1) length got.1 = bs := by
    rw [readBackBlocks, drop_readBackBlocks]
    exact readBackBlocks_eq hb hwords
  rw [hiv, hblocks]

end Sys2Proof.Machine

/-! The family 60_exceptions.md: no step faults in a state that meets the invariant (R176). Only the core's own
instructions can fault, and inside the invariant's bounds the core's step answers a next state. -/

namespace Sys2Proof.Machine

/-- The machine does not stop with a fault. -/
def NoFault (r : Result) : Prop := ∀ f, r ≠ .fault f

theorem noFault_next (s : State) : NoFault (.next s) := fun _ => nofun

theorem noFault_refused (x : Refusal) : NoFault (.refused x) := fun _ => nofun

/-! ### What stands outside the core -/

section

variable {s : State} {r : Result}

theorem NoFault.whenIdle (h : NoFault r) : NoFault (whenIdle s r) := by
  unfold Machine.whenIdle
  split
  · exact h
  · exact noFault_refused _

theorem NoFault.whenInStore {n : Word} (h : NoFault r) : NoFault (whenInStore s n r) := by
  unfold Machine.whenInStore
  split
  · exact h
  · exact noFault_refused _

theorem NoFault.whenLengthFits (h : NoFault r) : NoFault (whenLengthFits s r) := by
  unfold Machine.whenLengthFits
  split
  · exact h
  · exact noFault_refused _

theorem runCommand_noFault (f : Word → Word → Nat → Chain → Chain) (w : BitVec 4) (s : State) :
    NoFault (runCommand f w s) := by
  refine .whenIdle (.whenLengthFits ?_)
  split
  · exact noFault_next _
  · exact noFault_next _

theorem execRd_noFault (r : Reg) (s : State) : NoFault (execRd r s) := by
  cases r with
  | status => exact noFault_next _
  | cmd => exact .whenIdle (noFault_refused _)
  | klo | khi | iv | len => exact .whenIdle (noFault_next _)

theorem execWr_noFault (r : Reg) (v : Word) (s : State) : NoFault (execWr r v s) := by
  refine .whenIdle ?_
  cases r with
  | klo | khi | iv | len => exact noFault_next _
  | cmd => exact .whenLengthFits (noFault_next _)
  | status => exact noFault_refused _

/-- A whole command and a host transaction never fault, in any state: what they may not do they refuse. -/
theorem exec_noFault_of_not_core {i : Instr} (hi : isCoreInstr i = false) (s : State) : NoFault (exec i s) := by
  cases i with
  | encode | decode => exact runCommand_noFault _ _ s
  | rd r => exact execRd_noFault r s
  | wr r v => exact execWr_noFault r v s
  | rdb | wrb => exact .whenIdle (.whenInStore (noFault_next _))
  | fwd | bwd | idle | validate | encP1 | encP2 | encW0 | encW1 | decU0 | decU1 | decP1 | decP2 => cases hi

/-! ### What a step runs -/

/-- A form of format HOST is no instruction of the core. -/
theorem not_isCoreInstr_of_decodeHost {hdr : BitVec 2} {addr data : Word} {i : Instr}
    (hd : decodeHost hdr addr data = .ok i) : isCoreInstr i = false := by
  unfold decodeHost at hd
  split at hd
  case h_1 | h_2 =>
    cases hr : decodeReg addr <;> rw [hr] at hd <;> cases hd
    rfl
  case h_3 | h_4 => cases hd; rfl

/-- A form of format CMD is no instruction of the core. -/
theorem not_isCoreInstr_decodeCommand (w : BitVec 4) : isCoreInstr (decodeCommand w) = false := by
  unfold decodeCommand
  split <;> rfl

theorem step_of_fetch_reset {u : State} (hf : fetch s = .reset u) : step s = .next u.assertReset := by
  simp only [step, hf]

/-- In IDLE the core stays as it is, and a command in progress advances. -/
theorem exec_coreStep_noFault (hs : s.Inv) : NoFault (exec s.phase.stepInstr s) := by
  obtain ⟨-, hcommand, hsequencer⟩ := hs
  by_cases hp : s.phase = .idle
  · rw [hp]
    exact noFault_next s
  · obtain ⟨t, ht, -⟩ := stepAdvances hp hcommand hsequencer
    rw [ht]
    exact noFault_next t

theorem step_noFault (hs : s.Inv) : NoFault (step s) := by
  cases hf : fetch s with
  | reset u =>
    rw [step_of_fetch_reset hf]
    exact noFault_next _
  | instr e u =>
    obtain ⟨es, rfl, he⟩ := fetch_instr hf
    cases hd : decode e with
    | error err =>
      rw [step_of_fetch_error hf hd]
      exact noFault_refused _
    | ok i =>
      rw [step_of_fetch hf hd]
      obtain rfl | ⟨hdr, addr, data, rfl⟩ | ⟨w, rfl, -⟩ := he
      · cases (decode_coreForm s).symm.trans hd
        exact exec_coreStep_noFault (s := s.setHost es) hs
      · exact exec_noFault_of_not_core (not_isCoreInstr_of_decodeHost hd) _
      · cases hd
        exact exec_noFault_of_not_core (not_isCoreInstr_decodeCommand w) _

end

/-- Settles O46: a fault can come from the core's own step only, and inside the invariant's bounds that step answers a
next state. -/
theorem invariantExcludesFaults : Obligations.InvariantExcludesFaults := fun _ f hs => step_noFault hs f

end Sys2Proof.Machine

/-! The family 70_reset_and_hazards.md: a reset event is taken whatever the machine is doing (R190). -/

namespace Sys2Proof.Machine

theorem fetch_of_reset {s : State} {rest : List HostEvent} (h : s.host = .reset :: rest) :
    fetch s = .reset (s.setHost rest) := by
  simp only [fetch, h]

theorem busy_eq_false_of_idle {s : State} (hp : s.phase = .idle) : s.busy = false :=
  Bool.eq_false_iff.mpr fun hb => (busy_iff s).mp hb hp

/-- Settles O51: the reset event is fetched in every phase, and what it leaves has an empty list of written words,
which is a canonical store. -/
theorem resetEventLeavesIdle : Obligations.ResetEventLeavesIdle := by
  intro s rest h
  have hstep : step s = .next (s.setHost rest).assertReset := step_of_fetch_reset (fetch_of_reset h)
  have hidle : (s.setHost rest).assertReset.phase = .idle := State.assertReset_phase _
  exact ⟨_, hstep, hidle, busy_eq_false_of_idle hidle, Memory.empty_wf _, rfl, rfl, rfl⟩

end Sys2Proof.Machine

/-! The family other: the decoder undoes the encoder, format by format (30_encoding.md sections 2, 3 and 5). -/

namespace Sys2Proof

@[simp] theorem decodeReg_number (r : Reg) : decodeReg r.number = .ok r := by
  cases r <;> rfl

/-- A REG transaction is read by its register number alone; the data of a write is the value written. -/
theorem decodeHost_reg (w : Bool) (r : Reg) (data : Word) :
    decodeHost (BitVec.ofBool false ++ BitVec.ofBool w) r.number data =
      .ok (if w then .wr r data else .rd r) := by
  cases w <;> simp [decodeHost, spaceBit, writeBit, Except.map]

/-- A BLK transaction takes every word index. -/
theorem decodeHost_blk (w : Bool) (n data : Word) :
    decodeHost (BitVec.ofBool true ++ BitVec.ofBool w) n data =
      .ok (if w then .wrb n data else .rdb n) := by
  cases w <;> rfl

/-- Settles O2, format by format: the command word carries its three bits, a transaction its register or index and its
data; a direction bit and a PHASE code are one of the table's closed words. -/
theorem decodeEncodeRoundTrip : Obligations.DecodeEncodeRoundTrip := by
  intro i
  cases i with
  | encode kp ip dp => exact congrArg Except.ok (Machine.decodeCommand_commandWord false kp ip dp)
  | decode kp ip dp => exact congrArg Except.ok (Machine.decodeCommand_commandWord true kp ip dp)
  | fwd | bwd => rfl
  | idle | validate | encP1 | encP2 | encW0 | encW1 | decU0 | decU1 | decP1 | decP2 => rfl
  | rd r => exact decodeHost_reg false r 0#32
  | wr r v => exact decodeHost_reg true r v
  | rdb n => exact decodeHost_blk false n 0#32
  | wrb n v => exact decodeHost_blk true n v

end Sys2Proof
